-- ==== Sys2Proof/Word.lean ====
section
/-! DEFINITION. The word types whose width the spec fixes outright. The widths that spec/00_scope.md R6 lists as
parameters are fields of `Config.Params`. -/

namespace Sys2Proof

/-- One byte of `IN` or `OUT` (R47). -/
abbrev Byte := BitVec 8

/-- A command word (R67), and a status word: `STATUS`, `CAUSE`, `FPIX` (the table of R27). -/
abbrev Word32 := BitVec 32

end Sys2Proof
end

