-- ==== Sys2Proof/Config.lean ====
section
/-! DEFINITION. What is wired into the hardware and is not state (spec/10_state.md R42): the parameters of
spec/00_scope.md R6, the constants of spec/30_encoding.md R78 and R79, and the free value of an input byte that
nothing has written. -/

namespace Sys2Proof.Config

/-- `VOFF_MODE` (R6): how the planar V offset is formed from the chroma plane size. -/
inductive VoffMode where
  /-- `VOFF = ceil(CPS/2)`, the value of this hardware. -/
  | half
  /-- `VOFF = CPS`, the alternative the spec gives beside it. -/
  | full
deriving DecidableEq, Repr

/-- `CPHASE` (R6): which columns keep their chroma. -/
inductive ColumnPhase where
  /-- `CPHASE = 0`: even columns, the alternative the spec gives beside it (R134). -/
  | evenColumns
  /-- `CPHASE = 1`: odd columns, the value of this hardware. -/
  | oddColumns
deriving DecidableEq, Repr

/-- The number `CPHASE` stands for in R125 and R128. -/
def ColumnPhase.parity : ColumnPhase → Nat
  | .evenColumns => 0
  | .oddColumns => 1

/-- One row of the coefficient matrix (R78). -/
structure Row where
  red : Int
  green : Int
  blue : Int
deriving DecidableEq, Repr

/-- The constants of the datapath (R78, R79). -/
structure Kernel where
  /-- the Y row of the matrix -/
  rowY : Row
  /-- the U row of the matrix -/
  rowU : Row
  /-- the V row of the matrix -/
  rowV : Row
  /-- `ROUND_BIAS`, added to each sum before the shift -/
  roundBias : Int
  /-- `SHIFT`, the arithmetic right shift after the multiply-accumulate -/
  shift : Nat
  /-- `CHROMA_OFFSET`, added to the shifted U and V sums -/
  chromaOffset : Int
deriving DecidableEq, Repr

/-- The values of R78 and R79, the coefficient set of this hardware. -/
abbrev wired : Kernel where
  rowY := { red := 77, green := 150, blue := 29 }
  rowU := { red := -43, green := -84, blue := 127 }
  rowV := { red := 127, green := -106, blue := -21 }
  roundBias := 128
  shift := 8
  chromaOffset := 128

/-- The parameters of R6, one field each. The state and the step of the machine are given for every value of them, so
that a claim can quantify over each (R42); `hardware` holds this hardware's values. -/
structure Params where
  /-- `SAMPLE_BITS`: the sample registers (R14, R16) -/
  sampleBits : Nat
  /-- `DIM_BITS`: `WIDTH`, `HEIGHT`, `W`, `H`, `J`, `I` -/
  dimBits : Nat
  /-- `BPP_BITS`: `BPP`, `S` -/
  bppBits : Nat
  /-- `ADDR_BITS`: every address, cursor and buffer length -/
  addrBits : Nat
  /-- `MAX_PIXELS`: the largest frame an operation accepts -/
  maxPixels : Nat
  /-- `ACC_BITS`: the signed accumulators (R15); open in 92_eei_decisions.md -/
  accBits : Nat
  /-- the coefficient matrix, `ROUND_BIAS`, `SHIFT` and `CHROMA_OFFSET` -/
  kernel : Kernel
  /-- `VOFF_MODE`; open in 92_eei_decisions.md -/
  voffMode : VoffMode
  /-- `CPHASE`; open in 92_eei_decisions.md -/
  cphase : ColumnPhase
  /-- number of layouts; no step reads it, `Machine.Layout` has this many members (R23) -/
  layouts : Nat
  /-- number of engines in one instance; no step reads it, the state is one engine's (R13) -/
  engines : Nat
deriving DecidableEq, Repr

/-- This hardware (the value column of R6). -/
abbrev hardware : Params where
  sampleBits := 8
  dimBits := 32
  bppBits := 32
  addrBits := 64
  maxPixels := 1431655765
  accBits := 18
  kernel := wired
  voffMode := .half
  cphase := .oddColumns
  layouts := 2
  engines := 1

/-- How many addresses a byte memory has: addresses are unsigned numbers of `ADDR_BITS` bits (R47). -/
def Params.addressSpace (p : Params) : Nat := 2 ^ p.addrBits

/-- The byte that an `IN` address holds while nothing has written it since reset number `epoch`: a free value
(DESIGN CHOICE, notes/assumptions/6.md; R182 and M6 of 93_implementation_defined.md: any value). One address has one
value within one epoch, since reads of `IN` are idempotent (R51). -/
opaque unwrittenIn (epoch address : Nat) : Byte

end Sys2Proof.Config
end

