-- ==== Sys2Proof/Machine/State.lean ====
section
/-! DEFINITION. The machine's state as plain data (spec/10_state.md), the events that move it (R13, R83, R179), the
reasons a step can stop, and the state after reset (R44). -/

namespace Sys2Proof.Machine

/-- `MODE`: the output layout (R23). -/
inductive Layout where
  | planar
  | nv12
deriving DecidableEq, Repr

/-- `STATE`: the operation state (R26). -/
inductive OpState where
  | idle
  | busy
  | done
  | fault
deriving DecidableEq, Repr

/-- The fault causes of R72; codes 5 to 7 are never produced. -/
inductive Cause where
  | none
  | inOob
  | outOob
  | geom
  | illegalCmd
deriving DecidableEq, Repr

/-- The ten registers of the register file (R27). -/
inductive Reg where
  | width
  | height
  | bpp
  | inLen
  | cmd
  | status
  | cause
  | faddr
  | fpix
  | outLen
deriving DecidableEq, Repr

/-- A byte memory: the bytes that differ from what an unlisted address reads as, addresses strictly rising. An
address below `zeroed` that is not listed reads 0, since the zero-fill of R54 reached it; an unlisted address at or
above `zeroed` has no value. -/
structure Memory where
  cells : List Host.Cell
  zeroed : Nat
deriving DecidableEq, Repr

/-- The memory that nothing has written and no zero-fill has reached. -/
def Memory.blank : Memory := { cells := [], zeroed := 0 }

/-- The configuration registers the host writes (R28 to R31). -/
structure HostRegs (p : Config.Params) where
  width : BitVec p.dimBits
  height : BitVec p.dimBits
  bpp : BitVec p.bppBits
  inLen : BitVec p.addrBits
deriving DecidableEq, Repr

/-- The operation state and the result registers (R26, R34 to R37). -/
structure Status (p : Config.Params) where
  state : OpState
  cause : Cause
  faddr : BitVec p.addrBits
  fpix : Word32
  outLen : BitVec p.addrBits
deriving DecidableEq, Repr

/-- The latched operation parameters, under the spec's letters (R23, R24). -/
structure Latched (p : Config.Params) where
  w : BitVec p.dimBits
  h : BitVec p.dimBits
  s : BitVec p.bppBits
  l : BitVec p.addrBits
  mode : Layout
  n : BitVec p.addrBits
  cps : BitVec p.addrBits
  voff : BitVec p.addrBits
  olen : BitVec p.addrBits
deriving DecidableEq, Repr

/-- The sequencer position and the two write cursors (R17 to R21). -/
structure Sequencer (p : Config.Params) where
  j : BitVec p.dimBits
  i : BitVec p.dimBits
  index : BitVec p.addrBits
  ycur : BitVec p.addrBits
  ccur : BitVec p.addrBits
deriving DecidableEq, Repr

/-- The datapath registers and the gate predicate (R14 to R16, R25). -/
structure Datapath (p : Config.Params) where
  r : BitVec p.sampleBits
  g : BitVec p.sampleBits
  b : BitVec p.sampleBits
  yacc : BitVec p.accBits
  uacc : BitVec p.accBits
  vacc : BitVec p.accBits
  yq : BitVec p.sampleBits
  uq : BitVec p.sampleBits
  vq : BitVec p.sampleBits
  cgate : Bool
deriving DecidableEq, Repr

/-- What the host's last read returned (the model's own record, DESIGN CHOICE, notes/assumptions/8.md). -/
inductive HostData where
  /-- no read has been answered yet -/
  | nothing
  /-- a register read, at the register's own width (R27) -/
  | reg (width : Nat) (value : BitVec width)
  /-- the bytes of a memory read, lowest address first -/
  | bytes (values : List Byte)
deriving DecidableEq, Repr

/-- One thing that can happen to the machine between two steps of it: an action of the host (R83), a reset (R179), or
a turn of the engine (R194, R195). -/
inductive Event where
  /-- the engine takes its next pixel step, if it is `BUSY` -/
  | engine
  /-- `RESET` (R180) -/
  | reset
  /-- `WR`: write a register by number, at an access width (R27, R83) -/
  | wr (num : Nat) (width : Nat) (value : BitVec width)
  /-- `RD`: read a register by number, at an access width (R27, R83) -/
  | rd (num : Nat) (width : Nat)
  /-- `LDIN`: write bytes of `IN` (R83) -/
  | ldin (addr : Nat) (values : List Byte)
  /-- a host read of `IN` (R187) -/
  | rdin (addr count : Nat)
  /-- `RDOUT`: read bytes of `OUT` (R83) -/
  | rdout (addr count : Nat)
  /-- a host write of `OUT`, which has no path (R189) -/
  | wrout (addr : Nat) (values : List Byte)
  /-- `WAIT`: read `STATUS` until it is not `BUSY` (R83) -/
  | wait
deriving DecidableEq, Repr

/-- The whole machine, for any value of the parameters (R42). -/
structure MachineState (p : Config.Params) where
  /-- `WIDTH`, `HEIGHT`, `BPP`, `IN_LEN` -/
  cfg : HostRegs p
  /-- `STATE`, `CAUSE`, `FADDR`, `FPIX`, `OUT_LEN` -/
  status : Status p
  /-- `W`, `H`, `S`, `L`, `MODE`, `N`, `CPS`, `VOFF`, `OLEN` -/
  lat : Latched p
  /-- `J`, `I`, `INDEX`, `YCUR`, `CCUR` -/
  seq : Sequencer p
  /-- `R`, `G`, `B`, the accumulators, the clamped samples, `CGATE` -/
  dp : Datapath p
  /-- `IN` (R39) -/
  inMem : Memory
  /-- `OUT` (R40) -/
  outMem : Memory
  /-- the model's own: the events still to come, first one first (DESIGN CHOICE, notes/assumptions/1.md) -/
  schedule : List Event
  /-- the model's own: what the host's last read returned (DESIGN CHOICE, notes/assumptions/8.md) -/
  hostData : HostData
  /-- the model's own: how many `RESET` events there were (DESIGN CHOICE, notes/assumptions/6.md) -/
  epoch : Nat
deriving DecidableEq, Repr

/-- The state of this hardware: the whole machine at the values of R6. Its fields are those of `MachineState`. -/
structure State extends MachineState Config.hardware
deriving DecidableEq, Repr

/-- The result of one micro-operation: it ends and the next one runs, or a fault ended the step (R95, R164). -/
inductive Micro (p : Config.Params) where
  /-- the next micro-operation runs -/
  | cont (s : MachineState p)
  /-- a fault was taken; no later micro-operation of the step runs -/
  | ended (s : MachineState p)
deriving DecidableEq, Repr

/-- Why the model stops. The engine's own four faults are not here: they are taken, as R164 says, and leave a next
state. -/
inductive Fault where
  /-- Raised by `LDIN` and by a host read of `IN` that reaches an address `IN` does not have, 2^`ADDR_BITS` or more
  (R47). Safe: the model stops where the spec gives no location. -/
  | inAddressOutsideSpace (addr : Nat)
  /-- Raised by `RDOUT` for a byte that nothing has written and no zero-fill has reached. Safe: no state reached from
  reset shows it (R54, R63). -/
  | outByteHasNoValue (addr : Nat)
deriving DecidableEq, Repr

/-- Host actions the spec gives no outcome and tells a model to refuse (R11, R187 to R190). -/
inductive Refusal where
  /-- An instruction with no meaning in this model; no arm of `exec` answers it. Safe. -/
  | notModelled (mnemonic : String)
  /-- `LDIN` while `STATE = BUSY` (R187). Safe. -/
  | inWrittenWhileBusy
  /-- `RDOUT` while `STATE` is not `DONE` (R188). Safe. -/
  | outReadOutsideDone
  /-- `RDOUT` at an address at or beyond `OUT_LEN` (R188). Safe. -/
  | outReadBeyondLength
  /-- A host write of `OUT` (R189). Safe. -/
  | outWrittenByHost
  /-- A register number of 10 or more (R190). Safe. -/
  | noSuchRegister (num : Nat)
  /-- An access of another width than the register's (R190). Safe. -/
  | partialAccess (num : Nat) (width : Nat)
deriving DecidableEq, Repr

/-- The state after reset, one line per element of the table in R44. The fields of `lat`, `seq` and `dp` have "no
value" there; what they hold here is a DESIGN CHOICE (notes/assumptions/3.md, 4.md, 5.md). Both memories are
unspecified there (notes/assumptions/6.md, 7.md). -/
def MachineState.reset (p : Config.Params) : MachineState p where
  cfg := { width := 0, height := 0, bpp := 0, inLen := 0 }
  status := { state := .idle, cause := .none, faddr := 0, fpix := 0, outLen := 0 }
  lat := { w := 0, h := 0, s := 0, l := 0, mode := .planar, n := 0, cps := 0, voff := 0, olen := 0 }
  seq := { j := 0, i := 0, index := 0, ycur := 0, ccur := 0 }
  dp := { r := 0, g := 0, b := 0, yacc := 0, uacc := 0, vacc := 0, yq := 0, uq := 0, vq := 0, cgate := false }
  inMem := Memory.blank
  outMem := Memory.blank
  schedule := []
  hostData := .nothing
  epoch := 0

/-- The state of this hardware after reset (R44). -/
def State.reset : State where
  toMachineState := MachineState.reset Config.hardware

end Sys2Proof.Machine
end

