-- ==== Sys2Proof/Machine/Ops.lean ====
section
/-! DEFINITION. The shared operations: byte memories, the named updates of the state, the access primitives `InRead`
and `OutWrite` (spec/20_memory.md R52, R53), taking a fault (spec/60_exceptions.md R164) and leaving one (R168). -/

namespace Sys2Proof.Machine

/-! ## Byte memories -/

/-- The byte listed at an address, if one is. -/
def lookupCell : List Host.Cell → Nat → Option Byte
  | [], _ => none
  | c :: cs, a => if c.1 = a then some c.2 else lookupCell cs a

/-- The list with the byte at an address put in, addresses kept rising. -/
def insertCell (a : Nat) (v : Byte) : List Host.Cell → List Host.Cell
  | [] => [(a, v)]
  | c :: cs =>
    if a < c.1 then (a, v) :: c :: cs
    else if c.1 = a then (a, v) :: cs
    else c :: insertCell a v cs

/-- The list without the byte at an address. -/
def eraseCell (a : Nat) (cs : List Host.Cell) : List Host.Cell := cs.filter (fun c => c.1 ≠ a)

/-- What an unlisted address reads as: 0 where a zero-fill has reached it (R54), else no value (R39, R40). -/
def Memory.unlisted (m : Memory) (a : Nat) : Option Byte := if a < m.zeroed then some 0 else none

/-- The byte at an address, if it has a value. -/
def Memory.read (m : Memory) (a : Nat) : Option Byte :=
  match lookupCell m.cells a with
  | some v => some v
  | none => m.unlisted a

/-- The memory after one byte is written. -/
def Memory.write (m : Memory) (a : Nat) (v : Byte) : Memory :=
  if m.unlisted a = some v then { m with cells := eraseCell a m.cells }
  else { m with cells := insertCell a v m.cells }

/-- The memory after `OUT[a] <- 0` for every `a < n`; the bytes from `n` up are not touched (R54). -/
def Memory.zeroFill (m : Memory) (n : Nat) : Memory :=
  { cells := m.cells.filter (fun c => n ≤ c.1), zeroed := max m.zeroed n }

/-- The memory after bytes are written to consecutive addresses, lowest first. -/
def Memory.writeBytes (m : Memory) (a : Nat) : List Byte → Memory
  | [] => m
  | v :: vs => Memory.writeBytes (m.write a v) (a + 1) vs

/-- The canonical form: addresses strictly rising, and no entry equal to what its address reads as when unlisted. -/
abbrev Memory.wf (m : Memory) : Prop :=
  m.cells.Pairwise (fun c d => c.1 < d.1) ∧ ∀ c ∈ m.cells, m.unlisted c.1 ≠ some c.2

variable {p : Config.Params}

/-! ## Named updates of the state -/

/-- The state with other configuration registers. -/
def MachineState.withCfg (s : MachineState p) (v : HostRegs p) : MachineState p := { s with cfg := v }

/-- The state with another operation state or other result registers. -/
def MachineState.withStatus (s : MachineState p) (v : Status p) : MachineState p := { s with status := v }

/-- The state with other latched parameters. -/
def MachineState.withLat (s : MachineState p) (v : Latched p) : MachineState p := { s with lat := v }

/-- The state with another sequencer position or other cursors. -/
def MachineState.withSeq (s : MachineState p) (v : Sequencer p) : MachineState p := { s with seq := v }

/-- The state with other datapath registers. -/
def MachineState.withDp (s : MachineState p) (v : Datapath p) : MachineState p := { s with dp := v }

/-- The state with another input memory. -/
def MachineState.withIn (s : MachineState p) (v : Memory) : MachineState p := { s with inMem := v }

/-- The state with another output memory. -/
def MachineState.withOut (s : MachineState p) (v : Memory) : MachineState p := { s with outMem := v }

/-- The state with other events still to come. -/
def MachineState.withSchedule (s : MachineState p) (v : List Event) : MachineState p := { s with schedule := v }

/-- The state in which the host has been answered with `v`. -/
def MachineState.withHostData (s : MachineState p) (v : HostData) : MachineState p := { s with hostData := v }

/-! ## Taking a fault and leaving one -/

/-- `raise F(addr, pix)` (R164): `STATE`, `CAUSE`, `FADDR` and `FPIX` are written and nothing else; `OUT_LEN` keeps its
value. -/
def raise (f : Cause) (addr pix : Nat) (s : MachineState p) : MachineState p :=
  s.withStatus { s.status with
    state := .fault, cause := f, faddr := BitVec.ofNat p.addrBits addr, fpix := BitVec.ofNat 32 pix }

/-- The fault record as `Start` clears it, with the `STATE` and the `OUT_LEN` it sets (R91). There is no
return from a fault (R168): an accepted command replaces the record, or `RESET` does. -/
def clearFault (state : OpState) (outLen : BitVec p.addrBits) (s : MachineState p) : MachineState p :=
  s.withStatus { state := state, cause := .none, faddr := 0, fpix := 0, outLen := outLen }

/-! ## The micro-operation sequence and the access primitives -/

/-- The next micro-operation, unless a fault ended the step (R95). -/
def Micro.andThen (m : Micro p) (f : MachineState p → Micro p) : Micro p :=
  match m with
  | .cont s => f s
  | .ended s => .ended s

/-- The state a sequence of micro-operations leaves. -/
def Micro.state : Micro p → MachineState p
  | .cont s => s
  | .ended s => s

/-- The byte of `IN` at an address: what the host last wrote there, else the free value of the address (R39, R182). -/
def inByte (s : MachineState p) (a : Nat) : Byte := (s.inMem.read a).getD (Config.unwrittenIn s.epoch a)

/-- `InRead(a)` within the step of pixel `n` (R52): the byte goes to `k`, or `IN_OOB` ends the step. -/
def inRead (n a : Nat) (s : MachineState p) (k : Byte → Micro p) : Micro p :=
  if s.lat.l.toNat ≤ a then .ended (raise .inOob a n s) else k (inByte s a)

/-- `OutWrite(a, v)` within the step of pixel `n` (R53). -/
def outWrite (n a : Nat) (v : Byte) (s : MachineState p) : Micro p :=
  if s.lat.olen.toNat ≤ a then .ended (raise .outOob a n s) else .cont (s.withOut (s.outMem.write a v))

/-! ## Reset -/

/-- `RESET` (R180): every register takes its value after reset and no byte of either memory is specified any more. The
events still to come and the host's last answer are not the engine's and stay (notes/assumptions/11.md). -/
def resetEvent (s : MachineState p) : MachineState p :=
  { MachineState.reset p with schedule := s.schedule, hostData := s.hostData, epoch := s.epoch + 1 }

end Sys2Proof.Machine
end

