-- ==== Sys2Proof/Machine/Operands.lean ====
section
/-! DEFINITION. How operands are formed: the widened samples and the rows of the matrix (spec/30_encoding.md R78 to
R80), the arithmetic shift and the clamp (spec/00_scope.md R10, spec/41_color_transform.md R112), the fetch addresses
(R105), and the sizes of one operation (spec/00_scope.md R7). -/

namespace Sys2Proof.Machine

/-- `int(v)`: the unsigned sample as a mathematical integer (R80, R106). -/
def widen {bits : Nat} (v : BitVec bits) : Int := v.toNat

/-- A byte of memory as a sample: the byte is one sample (R47). -/
def sampleOf (bits : Nat) (v : Byte) : BitVec bits := v.setWidth bits

/-- A sample as the byte of memory that holds it (R47). -/
def byteOf {bits : Nat} (v : BitVec bits) : Byte := v.setWidth 8

/-- `x >> k` on a signed integer: arithmetic, toward minus infinity (R10). -/
def arithShiftRight (x : Int) (k : Nat) : Int := x >>> k

/-- One row of the matrix multiply with the rounding bias, before the shift: an exact integer (R107 to R109, R111). -/
def rowSum {bits : Nat} (k : Config.Kernel) (row : Config.Row) (r g b : BitVec bits) : Int :=
  row.red * widen r + row.green * widen g + row.blue * widen b + k.roundBias

/-- The luma row after the shift (R107). -/
def lumaValue {bits : Nat} (k : Config.Kernel) (r g b : BitVec bits) : Int :=
  arithShiftRight (rowSum k k.rowY r g b) k.shift

/-- The U row after the shift and the chroma offset (R108). -/
def chromaUValue {bits : Nat} (k : Config.Kernel) (r g b : BitVec bits) : Int :=
  arithShiftRight (rowSum k k.rowU r g b) k.shift + k.chromaOffset

/-- The V row after the shift and the chroma offset (R109). -/
def chromaVValue {bits : Nat} (k : Config.Kernel) (r g b : BitVec bits) : Int :=
  arithShiftRight (rowSum k k.rowV r g b) k.shift + k.chromaOffset

/-- `clamp(x)` (R112), as a sample. -/
def clamp (bits : Nat) (x : Int) : BitVec bits :=
  if x < 0 then 0
  else if 255 < x then 255
  else BitVec.ofInt bits x

/-- `yuv(r, g, b)`: the per-pixel transform as one function on bytes (R113). -/
def yuv (k : Config.Kernel) (r g b : Byte) : Byte × Byte × Byte :=
  (clamp 8 (lumaValue k r g b), clamp 8 (chromaUValue k r g b), clamp 8 (chromaVValue k r g b))

/-- The input address of component `c` of pixel `n`: `n*S + c`, exact (R55, R105). -/
def fetchAddress (n stride c : Nat) : Nat := n * stride + c

/-- `N = W * H` (R7). -/
def pixelCount (w h : Nat) : Nat := w * h

/-- `CPS = N div 4` (R7). -/
def chromaPlaneSize (n : Nat) : Nat := n / 4

/-- `VOFF`, by `VOFF_MODE` (R7). -/
def vOffset (mode : Config.VoffMode) (cps : Nat) : Nat :=
  match mode with
  | .half => (cps + 1) / 2
  | .full => cps

/-- `OLEN = (3 * N) div 2` (R7). -/
def outputLength (n : Nat) : Nat := 3 * n / 2

/-- `CREG = OLEN - N = N div 2`: the size of the region after the Y plane (R7, R59). -/
def chromaRegion (n : Nat) : Nat := n / 2

/-- `K`: how many chroma samples an image keeps (R7, R128). -/
def keptCount (phase : Config.ColumnPhase) (w h : Nat) : Nat :=
  match phase with
  | .oddColumns => (h + 1) / 2 * (w / 2)
  | .evenColumns => (h + 1) / 2 * ((w + 1) / 2)

end Sys2Proof.Machine
end

