-- ==== Sys2Proof/Machine/Flags.lean ====
section
/-! DEFINITION. The flags of this hardware (spec/00_scope.md R12): the encodings of `STATUS` and `CAUSE`
(spec/30_encoding.md R71, R72) and the gate predicate (spec/42_chroma_subsampler.md R125). -/

namespace Sys2Proof.Machine

/-- The code of `STATE` (R33, R71). -/
def OpState.code : OpState → BitVec 2
  | .idle => 0
  | .busy => 1
  | .done => 2
  | .fault => 3

/-- The code of a fault cause (R72). -/
def Cause.code : Cause → BitVec 3
  | .none => 0
  | .inOob => 1
  | .outOob => 2
  | .geom => 3
  | .illegalCmd => 4

/-- What a read of `STATUS` returns: the code in bits [1:0], the other bits 0 (R33, R71). -/
def statusWord (s : OpState) : Word32 := (0 : BitVec 30) ++ s.code

/-- What a read of `CAUSE` returns: the code in bits [2:0], the other bits 0 (R34, R72). -/
def causeWord (c : Cause) : Word32 := (0 : BitVec 29) ++ c.code

/-- The gate, on the row and on `INDEX` after its increment (R125, general form). -/
def gate (phase : Config.ColumnPhase) (j index : Nat) : Bool :=
  j % 2 == 0 && index % 2 == 1 - phase.parity

/-- The gate as a predicate on the pixel number of an image of width `w` (R98, R125): row `n div w` even, and
`n mod 2 = CPHASE`. -/
def keepsChroma (phase : Config.ColumnPhase) (w n : Nat) : Bool :=
  n / w % 2 == 0 && n % 2 == phase.parity

/-- `kept(n)`: how many pixels with a number below `n` pass the gate (R22). -/
def keptBelow (phase : Config.ColumnPhase) (w : Nat) : Nat → Nat
  | 0 => 0
  | n + 1 => keptBelow phase w n + (if keepsChroma phase w n then 1 else 0)

/-- By how much `CCUR` advances per kept sample: 1 in planar layout, 2 in NV12 (R21, R22). -/
def chromaAdvance : Layout → Nat
  | .planar => 1
  | .nv12 => 2

end Sys2Proof.Machine
end

