-- ==== Sys2Proof/Machine/ColorTransform.lean ====
section
/-! DEFINITION. The micro-operations `FETCH`, `LUMA`, `CHROMA_U`, `CHROMA_V`, `CLAMP` and the increment of `INDEX`
(spec/41_color_transform.md, spec/40_operations.md R95). -/

namespace Sys2Proof.Machine

variable {p : Config.Params}

/-- `FETCH` for pixel `n` (R105): red, green, blue in that order; the three registers are written together at the end
of the micro-operation (R9, notes/assumptions/9.md). -/
def fetch (n : Nat) (s : MachineState p) : Micro p :=
  inRead n (fetchAddress n s.lat.s.toNat 0) s fun r =>
  inRead n (fetchAddress n s.lat.s.toNat 1) s fun g =>
  inRead n (fetchAddress n s.lat.s.toNat 2) s fun b =>
  .cont (s.withDp { s.dp with
    r := sampleOf p.sampleBits r, g := sampleOf p.sampleBits g, b := sampleOf p.sampleBits b })

/-- `INDEX <- INDEX + 1`, after the fetch and before the gate (R19, R95). -/
def incIndex (s : MachineState p) : MachineState p := s.withSeq { s.seq with index := s.seq.index + 1 }

/-- `LUMA` (R107). -/
def luma (s : MachineState p) : MachineState p :=
  s.withDp { s.dp with yacc := BitVec.ofInt p.accBits (lumaValue p.kernel s.dp.r s.dp.g s.dp.b) }

/-- `CHROMA_U` (R108). -/
def chromaU (s : MachineState p) : MachineState p :=
  s.withDp { s.dp with uacc := BitVec.ofInt p.accBits (chromaUValue p.kernel s.dp.r s.dp.g s.dp.b) }

/-- `CHROMA_V` (R109). -/
def chromaV (s : MachineState p) : MachineState p :=
  s.withDp { s.dp with vacc := BitVec.ofInt p.accBits (chromaVValue p.kernel s.dp.r s.dp.g s.dp.b) }

/-- `CLAMP` (R112), on the accumulators read as two's complement (R15). -/
def clampStep (s : MachineState p) : MachineState p :=
  s.withDp { s.dp with
    yq := clamp p.sampleBits s.dp.yacc.toInt
    uq := clamp p.sampleBits s.dp.uacc.toInt
    vq := clamp p.sampleBits s.dp.vacc.toInt }

end Sys2Proof.Machine
end

