-- ==== Sys2Proof/Machine/Subsampler.lean ====
section
/-! DEFINITION. The micro-operation `CGATE` (spec/42_chroma_subsampler.md R125). -/

namespace Sys2Proof.Machine

/-- `CGATE` (R125): from `J` and from `INDEX` after its increment. -/
def cgate {p : Config.Params} (s : MachineState p) : MachineState p :=
  s.withDp { s.dp with cgate := gate p.cphase s.seq.j.toNat s.seq.index.toNat }

end Sys2Proof.Machine
end

