-- ==== Sys2Proof/Machine/Reformatter.lean ====
section
/-! DEFINITION. The store micro-operations `YSTORE`, `CSTORE_PLANAR`, `CSTORE_NV12` and the layout select
(spec/43_output_reformatter.md R135 to R138). -/

namespace Sys2Proof.Machine

variable {p : Config.Params}

/-- `YCUR <- YCUR + 1` (R135). -/
def incYcur (s : MachineState p) : MachineState p := s.withSeq { s.seq with ycur := s.seq.ycur + 1 }

/-- `CCUR <- CCUR + 1` (R136, R137). -/
def incCcur (s : MachineState p) : MachineState p := s.withSeq { s.seq with ccur := s.seq.ccur + 1 }

/-- `YSTORE` in the step of pixel `n` (R135). -/
def ystore (n : Nat) (s : MachineState p) : Micro p :=
  (outWrite n s.seq.ycur.toNat (byteOf s.dp.yq) s).andThen fun s => .cont (incYcur s)

/-- `CSTORE_PLANAR` in the step of pixel `n` (R136): U, then V `VOFF` bytes further, then the cursor. -/
def cstorePlanar (n : Nat) (s : MachineState p) : Micro p :=
  (outWrite n s.seq.ccur.toNat (byteOf s.dp.uq) s).andThen fun s =>
  (outWrite n (s.seq.ccur.toNat + s.lat.voff.toNat) (byteOf s.dp.vq) s).andThen fun s =>
  .cont (incCcur s)

/-- `CSTORE_NV12` in the step of pixel `n` (R137): U, cursor, V, cursor. -/
def cstoreNv12 (n : Nat) (s : MachineState p) : Micro p :=
  (outWrite n s.seq.ccur.toNat (byteOf s.dp.uq) s).andThen fun s =>
  let s := incCcur s
  (outWrite n s.seq.ccur.toNat (byteOf s.dp.vq) s).andThen fun s =>
  .cont (incCcur s)

/-- The chroma store of the step of pixel `n`, if the gate is true, as the layout says (R95, R138). -/
def chromaStore (n : Nat) (s : MachineState p) : Micro p :=
  if s.dp.cgate then
    match s.lat.mode with
    | .planar => cstorePlanar n s
    | .nv12 => cstoreNv12 n s
  else .cont s

end Sys2Proof.Machine
end

