-- ==== Sys2Proof/Machine/Sequencer.lean ====
section
/-! DEFINITION. The sequencer: `Start`, `ADVANCE`, `PixelStep` and the engine's turn (spec/40_operations.md R91, R95 to
R97). -/

namespace Sys2Proof.Machine

variable {p : Config.Params}

/-- The latch of `Start`, up to and including `N <- W * H` (R91, R23). -/
def latch (layout : Layout) (s : MachineState p) : MachineState p :=
  s.withLat { s.lat with
    w := s.cfg.width, h := s.cfg.height, s := s.cfg.bpp, l := s.cfg.inLen, mode := layout,
    n := BitVec.ofNat p.addrBits (pixelCount s.cfg.width.toNat s.cfg.height.toNat) }

/-- The sizes that `Start` computes once the geometry is accepted (R91, R24). -/
def latchSizes (s : MachineState p) : MachineState p :=
  s.withLat { s.lat with
    cps := BitVec.ofNat p.addrBits (chromaPlaneSize s.lat.n.toNat),
    voff := BitVec.ofNat p.addrBits (vOffset p.voffMode (chromaPlaneSize s.lat.n.toNat)),
    olen := BitVec.ofNat p.addrBits (outputLength s.lat.n.toNat) }

/-- The cursors and the position at the start of an operation (R91). -/
def rewind (s : MachineState p) : MachineState p :=
  s.withSeq { ycur := 0, ccur := s.lat.n, index := 0, j := 0, i := 0 }

/-- The part of `Start` that runs when the geometry is accepted (R91). -/
def startAccepted (s : MachineState p) : MachineState p :=
  let s := latchSizes s
  let s := s.withOut (s.outMem.zeroFill s.lat.olen.toNat)
  let s := rewind s
  clearFault (if s.lat.n = 0 then .done else .busy) s.lat.olen s

/-- `Start(layout)` (R91), with the `GEOM` fault of R160. -/
def start (layout : Layout) (s : MachineState p) : MachineState p :=
  let s := latch layout s
  if p.maxPixels < s.lat.n.toNat then
    raise .geom 0 0 (s.withStatus { s.status with outLen := 0, faddr := 0, fpix := 0 })
  else startAccepted s

/-- The traversal part of `ADVANCE` (R96). -/
def advancePosition (s : MachineState p) : MachineState p :=
  if s.seq.i.toNat + 1 < s.lat.w.toNat then s.withSeq { s.seq with i := s.seq.i + 1 }
  else s.withSeq { s.seq with i := 0, j := s.seq.j + 1 }

/-- `ADVANCE` (R96), with the completion of R97. -/
def advance (s : MachineState p) : MachineState p :=
  let s := advancePosition s
  if s.seq.index = s.lat.n then s.withStatus { s.status with state := .done } else s

/-- The micro-operations of one pixel step, in the order of R95. -/
def pixelMicro (s : MachineState p) : Micro p :=
  let n := s.seq.index.toNat
  (fetch n s).andThen fun s =>
  let s := clampStep (chromaV (chromaU (luma (incIndex s))))
  (ystore n s).andThen fun s =>
  (chromaStore n (cgate s)).andThen fun s =>
  .cont (advance s)

/-- `PixelStep()` (R95). -/
def pixelStep (s : MachineState p) : MachineState p := (pixelMicro s).state

/-- The engine's turn: one pixel step while `BUSY`; in `IDLE`, `DONE` and `FAULT` no engine step is enabled (R97). -/
def engineTurn (s : MachineState p) : MachineState p :=
  if s.status.state = .busy then pixelStep s else s

/-- `k` turns of the engine with nothing else happening. -/
def engineTurns : Nat → MachineState p → MachineState p
  | 0, s => s
  | k + 1, s => engineTurns k (engineTurn s)

end Sys2Proof.Machine
end

