-- ==== Sys2Proof/Syntax.lean ====
section
/-! DEFINITION. The commands a host can issue (spec/opcode_table.json, spec/30_encoding.md R67 and R68): one
constructor per row of the table. -/

namespace Sys2Proof

/-- The three commands. Their operands are implicit, the registers `WIDTH`, `HEIGHT`, `BPP`, `IN_LEN` and the memory
`IN` (R67, R86). -/
inductive Instr where
  /-- `CONVERT_PLANAR` (R88). -/
  | convertPlanar
  /-- `CONVERT_NV12` (R89). -/
  | convertNv12
  /-- `NOP` (R90), with the value of its ignored `LAYOUT` bit (R70), so that no bit of the word is dropped
  (DESIGN CHOICE, notes/assumptions/12.md). -/
  | nop (layout : BitVec 1)
deriving DecidableEq, Repr

end Sys2Proof
end

