-- ==== Sys2Proof/Machine/Commands.lean ====
section
/-! DEFINITION. The meanings of the three commands (spec/40_operations.md R88 to R90, R93) and of an illegal word
(R94), for every value of the parameters (R42), and, under the names that `exec` calls, on the state of this hardware.
A command's meaning is the one step of its write to `CMD`; the pixel steps that follow are turns of the engine
(spec/00_scope.md R5, R87). -/

namespace Sys2Proof.Machine

section AnyParameters

variable {p : Config.Params}

/-- A conversion command, for either layout: ignored while `BUSY` (R93), else `Start` (R88, R89). -/
def convert (layout : Layout) (s : MachineState p) : MachineState p :=
  if s.status.state = .busy then s else start layout s

/-- `CONVERT_PLANAR` (R88). -/
def convertPlanar (s : MachineState p) : Host.Outcome (MachineState p) Fault Refusal := .next (convert .planar s)

/-- `CONVERT_NV12` (R89). -/
def convertNv12 (s : MachineState p) : Host.Outcome (MachineState p) Fault Refusal := .next (convert .nv12 s)

/-- `NOP` (R90): nothing changes, in any state; the `LAYOUT` bit is not looked at (R70). -/
def nop (_layout : BitVec 1) (s : MachineState p) : Host.Outcome (MachineState p) Fault Refusal := .next s

/-- The meaning of a decoded command. -/
def runCommand (i : Instr) (s : MachineState p) : Host.Outcome (MachineState p) Fault Refusal :=
  match i with
  | .convertPlanar => convertPlanar s
  | .convertNv12 => convertNv12 s
  | .nop layout => nop layout s

/-- An illegal word written to `CMD`: ignored while `BUSY` (R93), else `ILLEGAL_CMD` (R94, R161). -/
def illegalCommand (s : MachineState p) : MachineState p :=
  if s.status.state = .busy then s else raise .illegalCmd 0 0 s

end AnyParameters

/-! ## This hardware -/

/-- An outcome of the machine at this hardware's parameters, as an outcome of this hardware. -/
def onHardware : Host.Outcome (MachineState Config.hardware) Fault Refusal → Host.Outcome State Fault Refusal
  | .next s => .next { toMachineState := s }
  | .fault f => .fault f
  | .refused r => .refused r

/-- `CONVERT_PLANAR` on this hardware (R88). -/
def execConvertPlanar (s : State) : Host.Outcome State Fault Refusal := onHardware (convertPlanar s.toMachineState)

/-- `CONVERT_NV12` on this hardware (R89). -/
def execConvertNv12 (s : State) : Host.Outcome State Fault Refusal := onHardware (convertNv12 s.toMachineState)

/-- `NOP` on this hardware (R90). -/
def execNop (layout : BitVec 1) (s : State) : Host.Outcome State Fault Refusal :=
  onHardware (nop layout s.toMachineState)

end Sys2Proof.Machine
end

