-- ==== Sys2Proof/Machine/Dispatch.lean ====
section
/-! DEFINITION. One arm per command: the meaning that runs it. -/

namespace Sys2Proof.Machine

def exec (i : Instr) (s : State) : Host.Outcome State Fault Refusal :=
  match i with
  | .convertPlanar => Sys2Proof.Machine.execConvertPlanar s
  | .convertNv12 => Sys2Proof.Machine.execConvertNv12 s
  | .nop layout => Sys2Proof.Machine.execNop layout s

end Sys2Proof.Machine
end

