-- ==== Sys2Proof/WellFormed.lean ====
section
/-! DEFINITION. Which instructions and which host actions are well formed, as decidable predicates. -/

namespace Sys2Proof

/-- Every command is well formed: the type of its one operand, the ignored bit of `NOP`, already admits exactly the
values the encoding admits (R68). -/
def Instr.WellFormed : Instr → Bool
  | .convertPlanar => true
  | .convertNv12 => true
  | .nop _ => true

end Sys2Proof

namespace Sys2Proof.Machine

/-- The width in bits of the register with this number, where there is one (the table of R27, with the widths of R6). -/
def registerWidth (p : Config.Params) : Nat → Option Nat
  | 0 => some p.dimBits
  | 1 => some p.dimBits
  | 2 => some p.bppBits
  | 3 => some p.addrBits
  | 4 => some 32
  | 5 => some 32
  | 6 => some 32
  | 7 => some p.addrBits
  | 8 => some 32
  | 9 => some p.addrBits
  | _ => none

/-- Whether a host action is one the spec's interface has: a register access names one of the ten registers and is as
wide as the register (R27, R190), an access to `IN` stays within its addresses (R47), and `OUT` is not written (R189).
Whether the action is allowed in the present `STATE` is the machine's matter. -/
def Event.WellFormed (p : Config.Params) : Event → Bool
  | .engine => true
  | .reset => true
  | .wr num width _ => registerWidth p num == some width
  | .rd num width => registerWidth p num == some width
  | .ldin addr values => addr + values.length ≤ p.addressSpace
  | .rdin addr count => addr + count ≤ p.addressSpace
  | .rdout _ _ => true
  | .wrout _ _ => false
  | .wait => true

end Sys2Proof.Machine
end

