-- ==== Sys2Proof/Decode.lean ====
section
/-! DEFINITION. Decoding of a word written to `CMD`, total on all 2^32 values (spec/30_encoding.md R67 to R70), and
the encoder written from the same format. -/

namespace Sys2Proof

/-- Why a word is no command. -/
inductive DecodeError where
  /-- bits [31:2] of the word are not all 0 (R69) -/
  | reservedBitsSet (rsvd : BitVec 30)
deriving DecidableEq, Repr

/-- Field `RSVD`, bits [31:2] of a command word (R67). -/
def rsvdField (c : Word32) : BitVec 30 := c.extractLsb' 2 30

/-- Field `LAYOUT`, bit [1] of a command word (R67). -/
def layoutField (c : Word32) : BitVec 1 := c.extractLsb' 1 1

/-- Field `START`, bit [0] of a command word (R67). -/
def startField (c : Word32) : BitVec 1 := c.extractLsb' 0 1

/-- The command that a word stands for (R68): an illegal word is rejected by the name of R69. -/
def decode (c : Word32) : Except DecodeError Instr :=
  if rsvdField c ≠ 0 then .error (.reservedBitsSet (rsvdField c))
  else if startField c = 0 then .ok (.nop (layoutField c))
  else if layoutField c = 0 then .ok .convertPlanar
  else .ok .convertNv12

/-- A word of format `CMD32`, from its fields `RSVD`, `LAYOUT`, `START` (R67). -/
def cmd32 (rsvd : BitVec 30) (layout start : BitVec 1) : Word32 := rsvd ++ layout ++ start

/-- The word of a command (R68). -/
def encode : Instr → Word32
  | .convertPlanar => cmd32 0 0 1
  | .convertNv12 => cmd32 0 1 1
  | .nop layout => cmd32 0 layout 0

/-- The word that an instruction of `nbits` bits with the bits `w` is: the bits from `nbits` up are 0. A command is one
32-bit word (R81), written whole to `CMD`, so there is no byte order to apply (R48). -/
def tableWord (nbits w : Nat) : Nat := w % 2 ^ nbits

/-- The command the decoder reads from a row of the opcode table whose bits are `w`; none where it refuses, and none
for bits beyond the 32 of a command word. -/
def decodeTableWord (nbits w : Nat) : Option Instr :=
  if tableWord nbits w < 2 ^ 32 then (decode (BitVec.ofNat 32 (tableWord nbits w))).toOption
  else none

end Sys2Proof
end

