-- ==== Sys2Proof/Machine/HostPort.lean ====
section
/-! DEFINITION. The host's side of the interface: the register file (spec/10_state.md R27 to R38), the command port
(spec/30_encoding.md R68, R69), the two memories as the host reaches them (spec/20_memory.md R63, R64 and
spec/70_reset_and_hazards.md R187 to R190), and the events of the schedule (R83). -/

namespace Sys2Proof.Machine

variable {p : Config.Params}

/-- The register with a number (the table of R27). -/
def Reg.ofNum : Nat → Option Reg
  | 0 => some .width
  | 1 => some .height
  | 2 => some .bpp
  | 3 => some .inLen
  | 4 => some .cmd
  | 5 => some .status
  | 6 => some .cause
  | 7 => some .faddr
  | 8 => some .fpix
  | 9 => some .outLen
  | _ => none

/-- The width of a register in bits (the table of R27, with the widths of R6). -/
def Reg.bits (p : Config.Params) : Reg → Nat
  | .width => p.dimBits
  | .height => p.dimBits
  | .bpp => p.bppBits
  | .inLen => p.addrBits
  | .cmd => 32
  | .status => 32
  | .cause => 32
  | .faddr => p.addrBits
  | .fpix => 32
  | .outLen => p.addrBits

/-- What a read of a register returns (R28 to R37); `CMD` reads as 0 (R32). -/
def readReg (s : MachineState p) : Reg → HostData
  | .width => .reg p.dimBits s.cfg.width
  | .height => .reg p.dimBits s.cfg.height
  | .bpp => .reg p.bppBits s.cfg.bpp
  | .inLen => .reg p.addrBits s.cfg.inLen
  | .cmd => .reg 32 0
  | .status => .reg 32 (statusWord s.status.state)
  | .cause => .reg 32 (causeWord s.status.cause)
  | .faddr => .reg p.addrBits s.status.faddr
  | .fpix => .reg 32 s.status.fpix
  | .outLen => .reg p.addrBits s.status.outLen

/-- A word written to `CMD` (R32): decoded (R68), then its meaning. -/
def writeCmd (c : Word32) (s : MachineState p) : Host.Outcome (MachineState p) Fault Refusal :=
  match decode c with
  | .ok i => runCommand i s
  | .error _ => .next (illegalCommand s)

/-- A write of a whole register; a write to a read-only register is ignored (R27), and the configuration registers may
be written in any state (R38). -/
def writeReg (r : Reg) (v : BitVec (r.bits p)) (s : MachineState p) : Host.Outcome (MachineState p) Fault Refusal :=
  match r, v with
  | .width, v => .next (s.withCfg { s.cfg with width := v })
  | .height, v => .next (s.withCfg { s.cfg with height := v })
  | .bpp, v => .next (s.withCfg { s.cfg with bpp := v })
  | .inLen, v => .next (s.withCfg { s.cfg with inLen := v })
  | .cmd, v => writeCmd v s
  | .status, _ => .next s
  | .cause, _ => .next s
  | .faddr, _ => .next s
  | .fpix, _ => .next s
  | .outLen, _ => .next s

/-- `WR` by register number and access width: refused for a number that does not exist and for a partial access
(R190). -/
def hostWrite (num width : Nat) (v : BitVec width) (s : MachineState p) : Host.Outcome (MachineState p) Fault Refusal :=
  match Reg.ofNum num with
  | none => .refused (.noSuchRegister num)
  | some r =>
    if width = r.bits p then writeReg r (v.setWidth (r.bits p)) s
    else .refused (.partialAccess num width)

/-- `RD` by register number and access width (R27, R190): no side effect on any register. -/
def hostRead (num width : Nat) (s : MachineState p) : Host.Outcome (MachineState p) Fault Refusal :=
  match Reg.ofNum num with
  | none => .refused (.noSuchRegister num)
  | some r =>
    if width = r.bits p then .next (s.withHostData (readReg s r))
    else .refused (.partialAccess num width)

/-- `LDIN` (R83): refused while `BUSY` (R187); an address that `IN` does not have faults (R47). A load of no bytes writes
none and reaches no address, so it does nothing, in any state and at any address (DESIGN CHOICE,
notes/assumptions/20.md). -/
def hostLoadIn (addr : Nat) (values : List Byte) (s : MachineState p) : Host.Outcome (MachineState p) Fault Refusal :=
  if values = [] then .next s
  else if s.status.state = .busy then .refused .inWrittenWhileBusy
  else if p.addressSpace < addr + values.length then .fault (.inAddressOutsideSpace (max addr p.addressSpace))
  else .next (s.withIn (s.inMem.writeBytes addr values))

/-- The bytes of `IN` from an address up. -/
def inBytes (s : MachineState p) (addr : Nat) : Nat → List Byte
  | 0 => []
  | k + 1 => inByte s addr :: inBytes s (addr + 1) k

/-- A host read of `IN`, harmless at any time (R187, notes/assumptions/17.md); a read of no bytes reaches no address and
answers none (DESIGN CHOICE, notes/assumptions/20.md). -/
def hostReadIn (addr count : Nat) (s : MachineState p) : Host.Outcome (MachineState p) Fault Refusal :=
  if 0 < count ∧ p.addressSpace < addr + count then .fault (.inAddressOutsideSpace (max addr p.addressSpace))
  else .next (s.withHostData (.bytes (inBytes s addr count)))

/-- The bytes of `OUT` from an address up, or the first address that has no value. -/
def outBytes (m : Memory) (addr : Nat) : Nat → Except Nat (List Byte)
  | 0 => .ok []
  | k + 1 =>
    match m.read addr with
    | none => .error addr
    | some v =>
      match outBytes m (addr + 1) k with
      | .ok vs => .ok (v :: vs)
      | .error a => .error a

/-- `RDOUT` (R83): only in `DONE` and only below `OUT_LEN` (R63, R188). In `DONE` a read of no bytes answers none, at any
address (DESIGN CHOICE, notes/assumptions/20.md). -/
def hostReadOut (addr count : Nat) (s : MachineState p) : Host.Outcome (MachineState p) Fault Refusal :=
  if s.status.state ≠ .done then .refused .outReadOutsideDone
  else if 0 < count ∧ s.status.outLen.toNat < addr + count then .refused .outReadBeyondLength
  else
    match outBytes s.outMem addr count with
    | .ok vs => .next (s.withHostData (.bytes vs))
    | .error a => .fault (.outByteHasNoValue a)

/-- `WAIT` (R83), one poll: the host reads `STATUS`; if it is `BUSY` the wait goes on and the engine has its turn,
else the wait is over (R170, notes/assumptions/16.md). -/
def hostWait (s : MachineState p) : MachineState p :=
  let s := s.withHostData (readReg s .status)
  if s.status.state = .busy then engineTurn (s.withSchedule (.wait :: s.schedule)) else s

/-- One event, taken off the schedule. -/
def runEvent (e : Event) (s : MachineState p) : Host.Outcome (MachineState p) Fault Refusal :=
  match e with
  | .engine => .next (engineTurn s)
  | .reset => .next (resetEvent s)
  | .wr num width v => hostWrite num width v s
  | .rd num width => hostRead num width s
  | .ldin addr values => hostLoadIn addr values s
  | .rdin addr count => hostReadIn addr count s
  | .rdout addr count => hostReadOut addr count s
  | .wrout _ _ => .refused .outWrittenByHost
  | .wait => .next (hostWait s)

/-- The next thing that happens: the first event of the schedule, or, when nothing else is to come, the engine's turn
(R194, notes/assumptions/2.md). -/
def nextEvent (s : MachineState p) : Host.Outcome (MachineState p) Fault Refusal :=
  match s.schedule with
  | [] => .next (engineTurn s)
  | e :: rest => runEvent e (s.withSchedule rest)

/-- The host action `WR CMD, word` for a command (R83). -/
def commandEvent (i : Instr) : Event := .wr 4 32 (encode i)

/-- The command write that stands for an instruction of the opcode table with `nbits` bits `w`, put before everything
else that is still to come: the next step runs it. -/
def MachineState.putCommand (s : MachineState p) (nbits w : Nat) : MachineState p :=
  s.withSchedule (.wr 4 32 (BitVec.ofNat 32 (tableWord nbits w)) :: s.schedule)

end Sys2Proof.Machine
end

