-- ==== Sys2Proof/Machine/Step.lean ====
section
/-! DEFINITION. One step of the machine, and how the host puts an instruction where the next step runs it. -/

namespace Sys2Proof.Machine

/-- One step of this hardware: the next event of the schedule, or the engine's turn. -/
def step (s : State) : Host.Outcome State Fault Refusal := onHardware (nextEvent s.toMachineState)

/-- The state in which the very next step writes the instruction's word to `CMD` (notes/assumptions/1.md). -/
def State.withFetchWord (s : State) (nbits w : Nat) : State := { toMachineState := s.putCommand nbits w }

end Sys2Proof.Machine
end

