-- ==== Sys2Proof/Machine/HostCall.lean ====
section
/-! DEFINITION. The source's two function entry points as sequences of host actions (spec/30_encoding.md R84,
spec/70_reset_and_hazards.md R183), run on the machine to their end. -/

namespace Sys2Proof.Machine

variable {p : Config.Params}

/-- The steps of the events to come, first one first, until none is left or `turns` steps are done. -/
def runSchedule : (turns : Nat) → MachineState p → Host.Outcome (MachineState p) Fault Refusal
  | 0, s => .next s
  | turns + 1, s =>
    match s.schedule with
    | [] => .next s
    | _ :: _ =>
      match nextEvent s with
      | .next t => runSchedule turns t
      | .fault f => .fault f
      | .refused r => .refused r

/-- The host performs one action that is over in one step. -/
def perform (e : Event) (s : MachineState p) : Host.Outcome (MachineState p) Fault Refusal :=
  nextEvent (s.withSchedule [e])

/-- What follows, unless the model has stopped. -/
def andThen {α β : Type} (r : Host.Outcome α Fault Refusal) (f : α → Host.Outcome β Fault Refusal) :
    Host.Outcome β Fault Refusal :=
  match r with
  | .next a => f a
  | .fault e => .fault e
  | .refused e => .refused e

/-- The number that the host's last register read returned. -/
def HostData.number : HostData → Nat
  | .nothing => 0
  | .reg _ v => v.toNat
  | .bytes _ => 0

/-- The bytes that the host's last memory read returned. -/
def HostData.list : HostData → List Byte
  | .nothing => []
  | .reg _ _ => []
  | .bytes vs => vs

/-- The actions of a call before its command, in the order in which R84 lists them: `LDIN` and the four `WR`. Their
order among themselves is free (R84). A buffer whose length does not fit `IN_LEN`, for which R84 names no outcome, writes
its length modulo 2^`ADDR_BITS`, and its `LDIN` faults if it is longer than `IN` (DESIGN CHOICE,
notes/assumptions/23.md, 14.md). -/
def setUpEvents (p : Config.Params) (pixels : List Byte) (width height : BitVec p.dimBits)
    (bytesPerPixel : BitVec p.bppBits) : List Event :=
  [ .ldin 0 pixels,
    .wr 3 p.addrBits (BitVec.ofNat p.addrBits pixels.length),
    .wr 0 p.dimBits width,
    .wr 1 p.dimBits height,
    .wr 2 p.bppBits bytesPerPixel ]

/-- The actions of a call up to `RD STATUS` (R84): the set-up, the command, `WAIT`, `RD STATUS`. -/
def callEvents (setUp : List Event) (i : Instr) : List Event := setUp ++ [commandEvent i, .wait, .rd 5 32]

/-- How a call ends (R84). -/
inductive CallEnd where
  /-- `STATUS` was `DONE`: the call returns the buffer -/
  | returned (yuvBuffer : List Byte)
  /-- `STATUS` was `FAULT`: the call terminates abnormally -/
  | terminated
  /-- the steps given were used up while the host waited -/
  | waiting
deriving DecidableEq, Repr

/-- The end of a call, after `RD STATUS` (R84): in `DONE`, `RD OUT_LEN` gives `m` and `RDOUT 0, m` the buffer. That in
`FAULT` the call is over without `RD OUT_LEN`, which has no side effect, is DEDUCED (notes/assumptions/23.md). -/
def finishCall (s : MachineState p) : Host.Outcome (CallEnd × MachineState p) Fault Refusal :=
  if s.schedule ≠ [] then .next (.waiting, s)
  else if s.hostData = .reg 32 (statusWord .done) then
    andThen (perform (.rd 9 p.addrBits) s) fun s =>
    andThen (perform (.rdout 0 s.hostData.number) s) fun s =>
    .next (.returned s.hostData.list, s)
  else .next (.terminated, s)

/-- One call of an entry point (R84): the set-up in some order, the command of the entry point, and so on to the buffer.
While the call runs the host does nothing else, and the engine has its turns while the host waits (R194); `turns` bounds
the steps up to `RD STATUS` (DESIGN CHOICE, notes/assumptions/23.md). -/
def hostCall (turns : Nat) (setUp : List Event) (i : Instr) (s : MachineState p) :
    Host.Outcome (CallEnd × MachineState p) Fault Refusal :=
  andThen (runSchedule turns (s.withSchedule (callEvents setUp i))) finishCall

/-- `convert_to_planar(pixels, width, height, bytes_per_pixel) -> yuv_buffer` (R84, R85). -/
def convertToPlanar (turns : Nat) (pixels : List Byte) (width height : BitVec p.dimBits)
    (bytesPerPixel : BitVec p.bppBits) (s : MachineState p) : Host.Outcome (CallEnd × MachineState p) Fault Refusal :=
  hostCall turns (setUpEvents p pixels width height bytesPerPixel) .convertPlanar s

/-- `convert_to_semi_planar_nv12(pixels, width, height, bytes_per_pixel) -> yuv_buffer` (R84, R85). -/
def convertToSemiPlanarNv12 (turns : Nat) (pixels : List Byte) (width height : BitVec p.dimBits)
    (bytesPerPixel : BitVec p.bppBits) (s : MachineState p) : Host.Outcome (CallEnd × MachineState p) Fault Refusal :=
  hostCall turns (setUpEvents p pixels width height bytesPerPixel) .convertNv12 s

end Sys2Proof.Machine
end

