-- ==== Sys2Proof/Machine/Reference.lean ====
section
/-! DEFINITION. The whole operation as one sequential program over lists (spec/40_operations.md R98): a second, plain
rendering of the same rules, for statements that compare it with the machine. The machine never calls it. -/

namespace Sys2Proof.Machine

/-- How an operation ends (R98). -/
inductive Conversion where
  /-- `DONE(out)` -/
  | done (out : List Byte)
  /-- `FAULT(IN_OOB, address, pixel)` -/
  | inOob (addr pix : Nat)
  /-- `FAULT(OUT_OOB, address, pixel)` -/
  | outOob (addr pix : Nat)
deriving DecidableEq, Repr

/-- What stays fixed during the loop of R98. -/
structure Job where
  kernel : Config.Kernel
  phase : Config.ColumnPhase
  mode : Layout
  w : Nat
  s : Nat
  l : Nat
  voff : Nat
  olen : Nat

/-- The loop of R98 from pixel `n` on, for `fuel` more pixels; `inp` is `IN`. -/
def convertLoop (job : Job) (inp : Nat → Byte) :
    (fuel n ycur ccur : Nat) → (out : List Byte) → Conversion
  | 0, _, _, _, out => .done out
  | fuel + 1, n, ycur, ccur, out =>
    if job.l ≤ n * job.s then .inOob (n * job.s) n
    else if job.l ≤ n * job.s + 1 then .inOob (n * job.s + 1) n
    else if job.l ≤ n * job.s + 2 then .inOob (n * job.s + 2) n
    else
      let c := yuv job.kernel (inp (n * job.s)) (inp (n * job.s + 1)) (inp (n * job.s + 2))
      let out := out.set ycur c.1
      if keepsChroma job.phase job.w n then
        match job.mode with
        | .planar =>
          if job.olen ≤ ccur then .outOob ccur n
          else if job.olen ≤ ccur + job.voff then .outOob (ccur + job.voff) n
          else
            convertLoop job inp fuel (n + 1) (ycur + 1) (ccur + 1)
              ((out.set ccur c.2.1).set (ccur + job.voff) c.2.2)
        | .nv12 =>
          if job.olen ≤ ccur then .outOob ccur n
          else if job.olen ≤ ccur + 1 then .outOob (ccur + 1) n
          else
            convertLoop job inp fuel (n + 1) (ycur + 1) (ccur + 2)
              ((out.set ccur c.2.1).set (ccur + 1) c.2.2)
      else convertLoop job inp fuel (n + 1) (ycur + 1) ccur out

/-- `Convert(MODE, W, H, S, L, IN)` (R98), for `W*H <= MAX_PIXELS`: no width of a register
enters. -/
def convertReference (p : Config.Params) (mode : Layout) (w h s l : Nat) (inp : Nat → Byte) : Conversion :=
  convertLoop
    { kernel := p.kernel, phase := p.cphase, mode := mode, w := w, s := s, l := l
      voff := vOffset p.voffMode (chromaPlaneSize (w * h))
      olen := outputLength (w * h) }
    inp (w * h) 0 0 (w * h) (List.replicate (outputLength (w * h)) 0)

end Sys2Proof.Machine
end

