-- ==== Sys2Proof/Safety.lean ====
section
/-! DEFINITION. What a well-kept state is (spec/10_state.md R22, R34 to R37, spec/40_operations.md R97), in the terms
the statements use. Every predicate is decidable on a concrete state. -/

namespace Sys2Proof.Machine

/-- A two's-complement accumulator of `ACC_BITS` bits holds this value (R15, R116). -/
abbrev FitsAccumulator (p : Config.Params) (x : Int) : Prop := (BitVec.ofInt p.accBits x).toInt = x

/-- The widths are large enough for every value the rules form, so that none ever wraps (R8). The rules show it for this
hardware; another set of parameters that meets this follows the same rules. -/
structure Adequate (p : Config.Params) : Prop where
  /-- a sample is a byte (R47) -/
  samples : p.sampleBits = 8
  /-- `W * H` before the `MAX_PIXELS` check (R24) -/
  pixels : 2 * p.dimBits ≤ p.addrBits
  /-- the input addresses (R52) -/
  inputs : p.maxPixels * 2 ^ p.bppBits + 2 < 2 ^ p.addrBits
  /-- `3 * N` and the output addresses (R7, R53) -/
  outputs : 3 * p.maxPixels < 2 ^ p.addrBits
  /-- the pixel number in `FPIX` (R36) -/
  numbers : p.maxPixels ≤ 2 ^ 32
  /-- the three rows in the accumulators (R15, R116) -/
  rows : ∀ r g b : Byte, FitsAccumulator p (lumaValue p.kernel r g b) ∧
    FitsAccumulator p (chromaUValue p.kernel r g b) ∧ FitsAccumulator p (chromaVValue p.kernel r g b)

/-- The datapath of this hardware, with accumulators of 17 bits or more (R78, R79, D12). -/
abbrev WiredDatapath (p : Config.Params) : Prop := p.sampleBits = 8 ∧ p.kernel = Config.wired ∧ 17 ≤ p.accBits

variable {p : Config.Params}

/-- The latched sizes are those of the latched geometry, and the geometry was accepted (R7, R24, R91). -/
abbrev Sized (q : Latched p) : Prop :=
  q.n.toNat = q.w.toNat * q.h.toNat ∧
  q.n.toNat ≤ p.maxPixels ∧
  q.cps.toNat = q.n.toNat / 4 ∧
  q.voff.toNat = vOffset p.voffMode q.cps.toNat ∧
  q.olen.toNat = 3 * q.n.toNat / 2

/-- The chroma stores made so far all lie within `OUT`: the highest address stored to is below `OLEN`. -/
abbrev StoresFit (s : MachineState p) : Prop :=
  s.seq.ccur.toNat + (match s.lat.mode with | .planar => s.lat.voff.toNat | .nv12 => 0) ≤ s.lat.olen.toNat

/-- The cursors stand where the pixels done so far put them (R20 to R22), and `OUT` is zero-filled up to `OLEN` (R54),
with `OUT_LEN` = `OLEN` (R37). -/
abbrev Placed (s : MachineState p) : Prop :=
  s.seq.ycur = s.seq.index ∧
  s.seq.ccur.toNat =
    s.lat.n.toNat + chromaAdvance s.lat.mode * keptBelow p.cphase s.lat.w.toNat s.seq.index.toNat ∧
  StoresFit s ∧
  s.status.outLen = s.lat.olen ∧
  s.lat.olen.toNat ≤ s.outMem.zeroed

/-- The invariants of the sequencer at the start of a pixel step (R22). -/
abbrev Running (s : MachineState p) : Prop :=
  Sized s.lat ∧ Placed s ∧
  s.seq.index.toNat = s.seq.j.toNat * s.lat.w.toNat + s.seq.i.toNat ∧
  s.seq.i.toNat < s.lat.w.toNat ∧
  s.seq.j.toNat < s.lat.h.toNat ∧
  s.seq.index.toNat < s.lat.n.toNat

/-- What holds in `DONE` (R97, R149). -/
abbrev Finished (s : MachineState p) : Prop :=
  Sized s.lat ∧ Placed s ∧
  s.seq.index = s.lat.n ∧
  (0 < s.lat.n.toNat → s.seq.j = s.lat.h ∧ s.seq.i = 0)

/-- The fault record says what R34 to R37 and R159 say: a cause exactly in `FAULT`, addresses and pixels only for the
two bounds faults, `FADDR` at or beyond the bound that failed. -/
abbrev RecordKept (s : MachineState p) : Prop :=
  (s.status.cause ≠ .none ↔ s.status.state = .fault) ∧
  (s.status.cause ≠ .inOob → s.status.cause ≠ .outOob → s.status.faddr = 0 ∧ s.status.fpix = 0) ∧
  (s.status.cause = .inOob → s.lat.l.toNat ≤ s.status.faddr.toNat) ∧
  (s.status.cause = .outOob → s.status.faddr = s.status.outLen) ∧
  (s.status.cause = .geom → s.status.outLen = 0)

/-- Both memories are in canonical form, and no zero-fill ever reached `IN`, which the engine never writes (R39). -/
abbrev MemoriesKept (s : MachineState p) : Prop :=
  s.inMem.wf ∧ s.inMem.zeroed = 0 ∧ s.outMem.wf

/-- The invariant of the machine. -/
abbrev Inv (s : MachineState p) : Prop :=
  MemoriesKept s ∧ RecordKept s ∧
  (s.status.state = .busy → Running s) ∧
  (s.status.state = .done → Finished s)

/-- The three fetches of pixel `n` are in bounds (R52, R105). -/
abbrev FetchInBounds (s : MachineState p) (n : Nat) : Prop := n * s.lat.s.toNat + 2 < s.lat.l.toNat

/-- Two states give an operation the same inputs (R100): the same configuration registers, and the same bytes of `IN`
at every address below `IN_LEN` at which the operation has a sample (R104); no other address is ever read (R52). -/
def SameInputs (s t : MachineState p) : Prop :=
  s.cfg = t.cfg ∧
  ∀ n c, n < s.cfg.width.toNat * s.cfg.height.toNat → c ≤ 2 →
    n * s.cfg.bpp.toNat + c < s.cfg.inLen.toNat →
    inByte s (n * s.cfg.bpp.toNat + c) = inByte t (n * s.cfg.bpp.toNat + c)

end Sys2Proof.Machine
end

