-- ==== Sys2Proof/Certificates/Slice0/Obligations.lean ====
section
/-! DEFINITION. The statements for the provers. Each docstring names the rule of spec/ it formalises, or says that it
states a choice of the model and names its log entry. -/

open Sys2Proof Sys2Proof.Machine

/-! ## Encoding -/

/-- R68, R70, R69: the words of the table, and three illegal ones, decode as listed. That `NOP` keeps its ignored bit
as an operand is the model's choice (notes/assumptions/12.md). -/
def Obligations.DecodeListedWords : Prop :=
  decode 0x00000001 = .ok .convertPlanar ∧
  decode 0x00000003 = .ok .convertNv12 ∧
  decode 0x00000000 = .ok (.nop 0) ∧
  decode 0x00000002 = .ok (.nop 1) ∧
  decode 0x00000004 = .error (.reservedBitsSet 1) ∧
  decode 0x80000001 = .error (.reservedBitsSet 0x20000000) ∧
  decode 0xFFFFFFFF = .error (.reservedBitsSet 0x3FFFFFFF)

/-- R68: decoding is total on all 2^32 words and follows the table's four conditions. -/
def Obligations.DecodeFollowsTable : Prop :=
  ∀ c : Word32,
    (decode c = .ok .convertPlanar ↔ c = 0x00000001) ∧
    (decode c = .ok .convertNv12 ↔ c = 0x00000003) ∧
    ((∃ layout, decode c = .ok (.nop layout)) ↔ c &&& 0xFFFFFFFD = 0) ∧
    ((∃ e, decode c = .error e) ↔ c.extractLsb' 2 30 ≠ 0)

/-- R67, R68, R70: decode and encode agree, both ways: a well-formed command's word decodes to it, and a word that
decodes to a command is that command's word, with every bit. That the ignored `LAYOUT` bit of `NOP` is kept as an
operand is the model's choice (notes/assumptions/12.md). -/
def Obligations.DecodeEncodeAgree : Prop :=
  (∀ i : Instr, i.WellFormed = true → decode (encode i) = .ok i) ∧
  ∀ (c : Word32) (i : Instr), decode c = .ok i → i.WellFormed = true ∧ encode i = c

/-! ## Commands -/

/-- R91 (with R88, R89): a conversion command that is not ignored completes in one step, for either layout and any
geometry. Accepted, it latches the registers, sets the sizes, zero-fills `OUT` below `OLEN` and touches no other byte,
rewinds the cursors and clears the fault record. Beyond `MAX_PIXELS` it takes `GEOM`; that the first parameters are
latched then is read from the order of R91 (notes/assumptions/19.md). Everything else is unchanged. -/
def Obligations.ConvertStartsOperation : Prop :=
  ∀ (i : Instr) (layout : Layout) (s : State),
    (i = .convertPlanar ∧ layout = .planar) ∨ (i = .convertNv12 ∧ layout = .nv12) →
    s.status.state ≠ .busy →
    let n := s.cfg.width.toNat * s.cfg.height.toNat
    ∃ t, exec i s = .next t ∧
      t.cfg = s.cfg ∧ t.dp = s.dp ∧ t.inMem = s.inMem ∧
      t.schedule = s.schedule ∧ t.hostData = s.hostData ∧ t.epoch = s.epoch ∧
      (n ≤ 1431655765 →
        t.lat = { w := s.cfg.width, h := s.cfg.height, s := s.cfg.bpp, l := s.cfg.inLen, mode := layout,
                  n := BitVec.ofNat 64 n, cps := BitVec.ofNat 64 (n / 4),
                  voff := BitVec.ofNat 64 ((n / 4 + 1) / 2), olen := BitVec.ofNat 64 (3 * n / 2) } ∧
        t.seq = { j := 0, i := 0, index := 0, ycur := 0, ccur := BitVec.ofNat 64 n } ∧
        t.status = { state := if n = 0 then .done else .busy, cause := .none, faddr := 0, fpix := 0,
                     outLen := BitVec.ofNat 64 (3 * n / 2) } ∧
        ∀ a, t.outMem.read a = if a < 3 * n / 2 then some 0 else s.outMem.read a) ∧
      (1431655765 < n →
        t.lat = { s.lat with w := s.cfg.width, h := s.cfg.height, s := s.cfg.bpp, l := s.cfg.inLen, mode := layout,
                             n := BitVec.ofNat 64 n } ∧
        t.seq = s.seq ∧
        t.status = { state := .fault, cause := .geom, faddr := 0, fpix := 0, outLen := 0 } ∧
        t.outMem = s.outMem)

/-- R92: a zero dimension is no error: the command ends in `DONE` at once with `OUT_LEN` = 0, whatever `BPP` and
`IN_LEN` are; no byte of either memory changes and no pixel step follows. -/
def Obligations.DegenerateGeometryCompletes : Prop :=
  ∀ (i : Instr) (s : State), i = .convertPlanar ∨ i = .convertNv12 → s.status.state ≠ .busy →
    s.cfg.width = 0 ∨ s.cfg.height = 0 →
    ∃ t, exec i s = .next t ∧
      t.status = { state := .done, cause := .none, faddr := 0, fpix := 0, outLen := 0 } ∧
      t.lat.n = 0 ∧ t.lat.olen = 0 ∧ engineTurn t.toMachineState = t.toMachineState ∧
      t.inMem = s.inMem ∧ ∀ a, t.outMem.read a = s.outMem.read a

/-- R90: the two words of `NOP`, and that it changes nothing, in any state, for either value of the ignored bit. That the
two words decode to two operands, the ignored bit kept, is the model's choice (notes/assumptions/12.md). -/
def Obligations.NopChangesNothing : Prop :=
  decode 0x00000000 = .ok (.nop 0) ∧ decode 0x00000002 = .ok (.nop 1) ∧
  ∀ (layout : BitVec 1) (s : State), exec (.nop layout) s = .next s

/-- R93, R192: a write to `CMD` while `BUSY` is ignored, whatever the word; the write is used up and nothing else
changes. -/
def Obligations.CommandWriteIgnoredWhileBusy : Prop :=
  ∀ (c : Word32) (rest : List Event) (s : State),
    s.status.state = .busy → s.schedule = .wr 4 32 c :: rest →
    step s = .next { s with schedule := rest }

/-- R94, R161: an illegal word written while not `BUSY` starts nothing and takes `ILLEGAL_CMD`; `OUT_LEN`, the latched
parameters, the configuration registers and both memories are unchanged. While `BUSY` it is ignored. -/
def Obligations.IllegalWordFaults : Prop :=
  ∀ (c : Word32) (rest : List Event) (s : State), c.extractLsb' 2 30 ≠ 0 → s.schedule = .wr 4 32 c :: rest →
    (s.status.state ≠ .busy →
      step s = .next { s with
        schedule := rest
        status := { state := .fault, cause := .illegalCmd, faddr := 0, fpix := 0, outLen := s.status.outLen } }) ∧
    (s.status.state = .busy → step s = .next { s with schedule := rest })

/-! ## The step -/

/-- R32, R68: a write to `CMD` of a word that decodes to a command runs that command; the step adds only that the
write is taken off the schedule. That the events to come stand in a schedule is the model's choice
(notes/assumptions/1.md). -/
def Obligations.StepRunsDecodedCommand : Prop :=
  ∀ (c : Word32) (i : Instr) (rest : List Event) (s : State),
    s.schedule = .wr 4 32 c :: rest → decode c = .ok i →
    step s = exec i { s with schedule := rest }

/-- The model's choice (notes/assumptions/1.md): a word placed by `withFetchWord` is run by the very next step. -/
def Obligations.PlacedWordRunsNext : Prop :=
  ∀ (s : State) (nbits w : Nat) (i : Instr),
    decodeTableWord nbits w = some i → step (s.withFetchWord nbits w) = exec i s

/-- R95, R97, R194: with nothing else to come, or at an engine event, a step is one pixel step while `BUSY`, and no
engine step is enabled in the other three states. That an empty schedule gives the engine its turn is the model's
choice (notes/assumptions/2.md). -/
def Obligations.EngineMovesOnlyWhileBusy : Prop :=
  ∀ (s : State) (rest : List Event),
    s.schedule = [] ∧ rest = [] ∨ s.schedule = .engine :: rest →
    let t : MachineState Config.hardware := s.withSchedule rest
    step s = .next { toMachineState := if s.status.state = .busy then pixelStep t else t }

/-! ## The colour transform -/

/-- R105 with R52: the fetch of pixel `n` loads the bytes at `n*S`, `n*S + 1`, `n*S + 2` and changes nothing else when
all three are below `L`. -/
def Obligations.FetchLoadsPixel : Prop :=
  ∀ (p : Config.Params) (n : Nat) (s : MachineState p), 8 ≤ p.sampleBits → n * s.lat.s.toNat + 2 < s.lat.l.toNat →
    ∃ r g b : BitVec p.sampleBits, fetch n s = .cont { s with dp := { s.dp with r := r, g := g, b := b } } ∧
      r.toNat = (inByte s (n * s.lat.s.toNat)).toNat ∧
      g.toNat = (inByte s (n * s.lat.s.toNat + 1)).toNat ∧
      b.toNat = (inByte s (n * s.lat.s.toNat + 2)).toNat

/-- R52, R105, R158, R164: a fetch that reaches an address at or beyond `L` takes `IN_OOB` with the first such address
and the pixel number, and changes nothing but the fault record. That no sample register is written then is the model's
reading (notes/assumptions/9.md). -/
def Obligations.FetchOutOfBoundsFaults : Prop :=
  ∀ (p : Config.Params) (n : Nat) (s : MachineState p), s.lat.l.toNat ≤ n * s.lat.s.toNat + 2 →
    ∃ a, (a = n * s.lat.s.toNat ∨ a = n * s.lat.s.toNat + 1 ∨ a = n * s.lat.s.toNat + 2) ∧
      s.lat.l.toNat ≤ a ∧ (∀ b, n * s.lat.s.toNat ≤ b → b < a → b < s.lat.l.toNat) ∧
      fetch n s = .ended { s with status := {
        state := .fault, cause := .inOob, faddr := BitVec.ofNat p.addrBits a, fpix := BitVec.ofNat 32 n,
        outLen := s.status.outLen } }

/-- R107: `LUMA` leaves exactly the Y row in `YACC`, and changes nothing else, for any `ACC_BITS` from 17 up (D12). -/
def Obligations.LumaAccumulator : Prop :=
  ∀ (p : Config.Params) (s : MachineState p), WiredDatapath p →
    let ysum : Int := 77 * (s.dp.r.toNat : Int) + 150 * (s.dp.g.toNat : Int) + 29 * (s.dp.b.toNat : Int) + 128
    ∃ y : BitVec p.accBits, luma s = { s with dp := { s.dp with yacc := y } } ∧
      y.toInt = ysum >>> (8 : Nat) ∧ 128 ≤ ysum ∧ ysum ≤ 65408 ∧ 0 ≤ y.toInt ∧ y.toInt ≤ 255

/-- R108: `CHROMA_U` leaves exactly the U row in `UACC`, and changes nothing else, for any `ACC_BITS` from 17 up (D12). -/
def Obligations.ChromaUAccumulator : Prop :=
  ∀ (p : Config.Params) (s : MachineState p), WiredDatapath p →
    let usum : Int := -43 * (s.dp.r.toNat : Int) - 84 * (s.dp.g.toNat : Int) + 127 * (s.dp.b.toNat : Int) + 128
    ∃ u : BitVec p.accBits, chromaU s = { s with dp := { s.dp with uacc := u } } ∧
      u.toInt = (usum >>> (8 : Nat)) + 128 ∧ -32257 ≤ usum ∧ usum ≤ 32513 ∧ 1 ≤ u.toInt ∧ u.toInt ≤ 255

/-- R109: `CHROMA_V` leaves exactly the V row in `VACC`, and changes nothing else, for any `ACC_BITS` from 17 up (D12). -/
def Obligations.ChromaVAccumulator : Prop :=
  ∀ (p : Config.Params) (s : MachineState p), WiredDatapath p →
    let vsum : Int := 127 * (s.dp.r.toNat : Int) - 106 * (s.dp.g.toNat : Int) - 21 * (s.dp.b.toNat : Int) + 128
    ∃ v : BitVec p.accBits, chromaV s = { s with dp := { s.dp with vacc := v } } ∧
      v.toInt = (vsum >>> (8 : Nat)) + 128 ∧ -32257 ≤ vsum ∧ vsum ≤ 32513 ∧ 1 ≤ v.toInt ∧ v.toInt ≤ 255

/-- R112: `CLAMP` saturates each accumulator, read as a signed number, to 0 to 255, and changes nothing else; any
accumulator contents, reachable or not. -/
def Obligations.ClampSaturates : Prop :=
  ∀ (p : Config.Params) (s : MachineState p), 8 ≤ p.sampleBits → ∃ y u v : BitVec p.sampleBits,
    clampStep s = { s with dp := { s.dp with yq := y, uq := u, vq := v } } ∧
    (y.toNat : Int) = (if s.dp.yacc.toInt < 0 then 0 else if 255 < s.dp.yacc.toInt then 255 else s.dp.yacc.toInt) ∧
    (u.toNat : Int) = (if s.dp.uacc.toInt < 0 then 0 else if 255 < s.dp.uacc.toInt then 255 else s.dp.uacc.toInt) ∧
    (v.toNat : Int) = (if s.dp.vacc.toInt < 0 then 0 else if 255 < s.dp.vacc.toInt then 255 else s.dp.vacc.toInt)

/-- R115: after the three rows and the clamp the samples equal the accumulators, for every input, and no chroma sample
is 0. -/
def Obligations.ClampNeverSaturates : Prop :=
  ∀ (p : Config.Params) (s : MachineState p), WiredDatapath p →
    let t := clampStep (chromaV (chromaU (luma s)))
    (t.dp.yq.toNat : Int) = t.dp.yacc.toInt ∧ (t.dp.uq.toNat : Int) = t.dp.uacc.toInt ∧
      (t.dp.vq.toNat : Int) = t.dp.vacc.toInt ∧ t.dp.uq.toNat ≠ 0 ∧ t.dp.vq.toNat ≠ 0

/-- R113: `FETCH` to `CLAMP` leave `yuv(R, G, B)` in `YQ`, `UQ`, `VQ`: a function of the three samples alone, the same for
every `ACC_BITS` from 17 up (D12). -/
def Obligations.DatapathComputesYuv : Prop :=
  ∀ (p : Config.Params) (s : MachineState p), WiredDatapath p →
    let t := clampStep (chromaV (chromaU (luma (incIndex s))))
    (byteOf t.dp.yq, byteOf t.dp.uq, byteOf t.dp.vq) =
      yuv Config.wired (byteOf s.dp.r) (byteOf s.dp.g) (byteOf s.dp.b) ∧
    t.dp.r = s.dp.r ∧ t.dp.g = s.dp.g ∧ t.dp.b = s.dp.b ∧ t.dp.cgate = s.dp.cgate ∧
    t.seq = { s.seq with index := s.seq.index + 1 } ∧
    t = { s with dp := t.dp, seq := t.seq }

/-- R116, D12: any accumulator of 17 bits or more holds all three sums exactly. -/
def Obligations.SeventeenBitsSuffice : Prop :=
  ∀ (width : Nat) (r g b : Byte) (row : Config.Row), 17 ≤ width →
    row = Config.wired.rowY ∨ row = Config.wired.rowU ∨ row = Config.wired.rowV →
    (BitVec.ofInt width (rowSum Config.wired row r g b)).toInt = rowSum Config.wired row r g b

/-- R118: on the grey axis the three sums are 256t + 128, 128 and 128, luma is the sample and both chroma values are
128. -/
def Obligations.GreyAxis : Prop :=
  ∀ t : Byte, rowSum Config.wired Config.wired.rowY t t t = 256 * (t.toNat : Int) + 128 ∧
    rowSum Config.wired Config.wired.rowU t t t = 128 ∧ rowSum Config.wired Config.wired.rowV t t t = 128 ∧
    yuv Config.wired t t t = (t, 128, 128)

/-! ## The subsampler -/

/-- R125: the gate is computed from `J` and the incremented `INDEX`, for either value of `CPHASE`, and nothing else
changes. -/
def Obligations.GateComputation : Prop :=
  ∀ (p : Config.Params) (s : MachineState p), ∃ k : Bool,
    cgate s = { s with dp := { s.dp with cgate := k } } ∧
    (k = true ↔ s.seq.j.toNat % 2 = 0 ∧ s.seq.index.toNat % 2 = 1 - p.cphase.parity)

/-- R126: at the start of a pixel step the gate of that step is true exactly in an even row and a column of the parity
`CPHASE`, for every width. -/
def Obligations.GateByRowAndColumn : Prop :=
  ∀ (p : Config.Params) (s : MachineState p),
    s.seq.index.toNat = s.seq.j.toNat * s.lat.w.toNat + s.seq.i.toNat → s.seq.i.toNat < s.lat.w.toNat →
    s.seq.index.toNat + 1 < 2 ^ p.addrBits →
    ((cgate (incIndex s)).dp.cgate = true ↔ s.seq.j.toNat % 2 = 0 ∧ s.seq.i.toNat % 2 = p.cphase.parity)

/-- R128: how many samples an image keeps, under either `CPHASE`; for even dimensions one per 2x2 block. -/
def Obligations.KeptSampleCount : Prop :=
  ∀ w h : Nat,
    keptBelow .oddColumns w (w * h) = (h + 1) / 2 * (w / 2) ∧
    keptBelow .evenColumns w (w * h) = (h + 1) / 2 * ((w + 1) / 2) ∧
    (w % 2 = 0 → h % 2 = 0 → ∀ phase, keptBelow phase w (w * h) = w * h / 4)

/-- R129: the pixel of the `k`-th kept sample passes the gate, and exactly `k` kept pixels come before it. -/
def Obligations.KeptSampleOrder : Prop :=
  ∀ (phase : Config.ColumnPhase) (w h k : Nat), k < keptCount phase w h →
    let perRow := if phase = .oddColumns then w / 2 else (w + 1) / 2
    let row := 2 * (k / perRow)
    let column := 2 * (k % perRow) + phase.parity
    row < h ∧ column < w ∧ keepsChroma phase w (row * w + column) = true ∧
      keptBelow phase w (row * w + column) = k

/-! ## The stores -/

/-- R135 with R53: `YSTORE` writes the luma sample at `YCUR` and advances `YCUR`, and no other byte and no other
register changes; at or beyond `OLEN` it takes `OUT_OOB` instead. -/
def Obligations.LumaStore : Prop :=
  ∀ (p : Config.Params) (n : Nat) (s : MachineState p),
    (s.seq.ycur.toNat < s.lat.olen.toNat →
      ∃ out, ystore n s = .cont { s with outMem := out, seq := { s.seq with ycur := s.seq.ycur + 1 } } ∧
        ∀ a, out.read a = if a = s.seq.ycur.toNat then some (byteOf s.dp.yq) else s.outMem.read a) ∧
    (s.lat.olen.toNat ≤ s.seq.ycur.toNat →
      ystore n s = .ended { s with status := {
        state := .fault, cause := .outOob, faddr := BitVec.ofNat p.addrBits s.seq.ycur.toNat, fpix := BitVec.ofNat 32 n,
        outLen := s.status.outLen } })

/-- R136: `CSTORE_PLANAR` stores U at `CCUR`, then V `VOFF` further (the later store wins where they meet), and
advances `CCUR` by 1; if the first store is out of bounds nothing is written, if the second is, the U byte has been
written and `CCUR` has not moved. -/
def Obligations.PlanarChromaStore : Prop :=
  ∀ (p : Config.Params) (n : Nat) (s : MachineState p),
    let u := s.seq.ccur.toNat
    let v := s.seq.ccur.toNat + s.lat.voff.toNat
    let record (a : Nat) : Status p := {
      state := .fault, cause := .outOob, faddr := BitVec.ofNat p.addrBits a, fpix := BitVec.ofNat 32 n,
      outLen := s.status.outLen }
    (s.lat.olen.toNat ≤ u → cstorePlanar n s = .ended { s with status := record u }) ∧
    (u < s.lat.olen.toNat → s.lat.olen.toNat ≤ v →
      ∃ out, cstorePlanar n s = .ended { s with status := record v, outMem := out } ∧
        ∀ a, out.read a = if a = u then some (byteOf s.dp.uq) else s.outMem.read a) ∧
    (v < s.lat.olen.toNat →
      ∃ out, cstorePlanar n s = .cont { s with outMem := out, seq := { s.seq with ccur := s.seq.ccur + 1 } } ∧
        ∀ a, out.read a =
          if a = v then some (byteOf s.dp.vq) else if a = u then some (byteOf s.dp.uq) else s.outMem.read a)

/-- R137: `CSTORE_NV12` stores U at `CCUR` and V at the next address and advances `CCUR` by 2; if the first store is out
of bounds nothing is written, if the second is, the U byte has been written and `CCUR` has advanced once. -/
def Obligations.InterleavedChromaStore : Prop :=
  ∀ (p : Config.Params) (n : Nat) (s : MachineState p), s.seq.ccur.toNat + 1 < 2 ^ p.addrBits →
    let u := s.seq.ccur.toNat
    let record (a : Nat) : Status p := {
      state := .fault, cause := .outOob, faddr := BitVec.ofNat p.addrBits a, fpix := BitVec.ofNat 32 n,
      outLen := s.status.outLen }
    (s.lat.olen.toNat ≤ u → cstoreNv12 n s = .ended { s with status := record u }) ∧
    (u < s.lat.olen.toNat → s.lat.olen.toNat ≤ u + 1 →
      ∃ out, cstoreNv12 n s = .ended { s with
          status := record (u + 1), outMem := out, seq := { s.seq with ccur := s.seq.ccur + 1 } } ∧
        ∀ a, out.read a = if a = u then some (byteOf s.dp.uq) else s.outMem.read a) ∧
    (u + 1 < s.lat.olen.toNat →
      ∃ out, cstoreNv12 n s = .cont { s with outMem := out, seq := { s.seq with ccur := s.seq.ccur + 2 } } ∧
        ∀ a, out.read a =
          if a = u + 1 then some (byteOf s.dp.vq) else if a = u then some (byteOf s.dp.uq) else s.outMem.read a)

/-- R96: `ADVANCE` moves to the next column, or to the first column of the next row, and sets `DONE` exactly when
`INDEX` = `N`; nothing else changes. -/
def Obligations.AdvanceMovesRowMajor : Prop :=
  ∀ (p : Config.Params) (s : MachineState p),
    advance s = { s with
      seq := if s.seq.i.toNat + 1 < s.lat.w.toNat then { s.seq with i := s.seq.i + 1 }
             else { s.seq with i := 0, j := s.seq.j + 1 }
      status := if s.seq.index = s.lat.n then { s.status with state := .done } else s.status }

/-! ## The pixel step -/

/-- R95, R96, R97, R135 to R137: a pixel step of a running operation whose accesses are in bounds. It stores the luma
byte at `YCUR`, and for a kept pixel the chroma pair where the layout places it, and no other byte; it moves the
position and the cursors, and ends in `DONE` exactly after the last pixel. -/
def Obligations.PixelStepCompletes : Prop :=
  ∀ (p : Config.Params) (s : MachineState p), Adequate p → Running s → s.status.state = .busy →
    FetchInBounds s s.seq.index.toNat →
    let n := s.seq.index.toNat
    let c := yuv p.kernel (inByte s (n * s.lat.s.toNat)) (inByte s (n * s.lat.s.toNat + 1))
      (inByte s (n * s.lat.s.toNat + 2))
    let kept := keepsChroma p.cphase s.lat.w.toNat n
    let u := s.seq.ccur.toNat
    let v := if s.lat.mode = .planar then u + s.lat.voff.toNat else u + 1
    (kept = true → v < s.lat.olen.toNat) →
    ∃ t, pixelStep s = t ∧
      t.cfg = s.cfg ∧ t.lat = s.lat ∧ t.inMem = s.inMem ∧ t.schedule = s.schedule ∧ t.hostData = s.hostData ∧
      t.epoch = s.epoch ∧
      t.status = { s.status with state := if n + 1 = s.lat.n.toNat then .done else .busy } ∧
      t.seq.index.toNat = n + 1 ∧ t.seq.ycur.toNat = n + 1 ∧
      t.seq.ccur.toNat = u + (if kept then chromaAdvance s.lat.mode else 0) ∧
      t.seq.j.toNat = (n + 1) / s.lat.w.toNat ∧ t.seq.i.toNat = (n + 1) % s.lat.w.toNat ∧
      (byteOf t.dp.yq, byteOf t.dp.uq, byteOf t.dp.vq) = c ∧ t.dp.cgate = kept ∧
      ∀ a, t.outMem.read a =
        if kept = true ∧ a = v then some c.2.2
        else if kept = true ∧ a = u then some c.2.1
        else if a = n then some c.1
        else s.outMem.read a

/-- R158, R164, R165: a pixel step whose fetch is out of bounds takes `IN_OOB` with the first offending address
max(L, n*S) and the pixel number, before any store: nothing else changes. That no sample register is written then is
the model's reading (notes/assumptions/9.md). -/
def Obligations.PixelStepInputFault : Prop :=
  ∀ (p : Config.Params) (s : MachineState p), ¬ FetchInBounds s s.seq.index.toNat →
    pixelStep s = { s with status := {
      state := .fault, cause := .inOob,
      faddr := BitVec.ofNat p.addrBits (max s.lat.l.toNat (s.seq.index.toNat * s.lat.s.toNat)),
      fpix := BitVec.ofNat 32 s.seq.index.toNat, outLen := s.status.outLen } }

/-- R159, R166, R167: a pixel step of a running operation that takes `OUT_OOB` reports the address `OLEN` and the pixel
number. The luma byte of the pixel has been stored; the U byte at `CCUR` has been stored if it was the V store that
failed, and nothing at `CCUR` if it was the U store; every other byte reads as before. -/
def Obligations.PixelStepOutputFault : Prop :=
  ∀ (p : Config.Params) (s : MachineState p), Adequate p → Running s → s.status.state = .busy →
    FetchInBounds s s.seq.index.toNat →
    keepsChroma p.cphase s.lat.w.toNat s.seq.index.toNat = true →
    s.lat.olen.toNat ≤ (if s.lat.mode = .planar then s.seq.ccur.toNat + s.lat.voff.toNat else s.seq.ccur.toNat + 1) →
    let n := s.seq.index.toNat
    let c := yuv p.kernel (inByte s (n * s.lat.s.toNat)) (inByte s (n * s.lat.s.toNat + 1))
      (inByte s (n * s.lat.s.toNat + 2))
    ∃ t, pixelStep s = t ∧
      t.status = { state := .fault, cause := .outOob, faddr := s.lat.olen, fpix := BitVec.ofNat 32 n,
                   outLen := s.status.outLen } ∧
      t.outMem.read n = some c.1 ∧
      (s.seq.ccur.toNat < s.lat.olen.toNat → t.outMem.read s.seq.ccur.toNat = some c.2.1) ∧
      (s.lat.olen.toNat ≤ s.seq.ccur.toNat →
        t.outMem.read s.seq.ccur.toNat = s.outMem.read s.seq.ccur.toNat) ∧
      ∀ a, a ≠ n → a ≠ s.seq.ccur.toNat → t.outMem.read a = s.outMem.read a

/-- R23, R39, R50: whatever a pixel step does, in any state, it leaves the configuration registers, the latched
parameters, `IN`, `OUT_LEN` and the model's own fields as they are, and of `OUT` it changes at most the bytes at `YCUR`,
`CCUR`, `CCUR` + 1 and `CCUR` + `VOFF`. -/
def Obligations.PixelStepFrame : Prop :=
  ∀ (p : Config.Params) (s : MachineState p),
    let t := pixelStep s
    t.cfg = s.cfg ∧ t.lat = s.lat ∧ t.inMem = s.inMem ∧ t.status.outLen = s.status.outLen ∧
    t.schedule = s.schedule ∧ t.hostData = s.hostData ∧ t.epoch = s.epoch ∧
    ∀ a, a ≠ s.seq.ycur.toNat → a ≠ s.seq.ccur.toNat → a ≠ (s.seq.ccur + 1).toNat →
      a ≠ s.seq.ccur.toNat + s.lat.voff.toNat → t.outMem.read a = s.outMem.read a

/-- R40, R172: the engine never reads `OUT`: what a pixel step does to everything else does not depend on `OUT`, and from
two contents of `OUT` every byte of it is left with the same value in both, which is then stored whatever stood there, or
is left as it was in both. -/
def Obligations.OutputNeverRead : Prop :=
  ∀ (p : Config.Params) (s : MachineState p) (m : Memory),
    (pixelStep (s.withOut m)).withOut s.outMem = (pixelStep s).withOut s.outMem ∧
    ∀ a,
      (pixelStep (s.withOut m)).outMem.read a = (pixelStep s).outMem.read a ∨
      (pixelStep (s.withOut m)).outMem.read a = m.read a ∧ (pixelStep s).outMem.read a = s.outMem.read a

/-- R146: the luma store of a running operation is always in range. -/
def Obligations.LumaNeverOverruns : Prop :=
  ∀ (p : Config.Params) (s : MachineState p), Running s → s.seq.ycur.toNat < s.lat.olen.toNat

/-- R147, R133: with an even height, and for `CPHASE` = 0 an even width, no pixel step of a running operation takes
`OUT_OOB`, in either layout and under either `VOFF_MODE`. -/
def Obligations.EvenHeightNeverOverruns : Prop :=
  ∀ (p : Config.Params) (s : MachineState p), Adequate p → Running s → s.status.state = .busy →
    s.lat.h.toNat % 2 = 0 → (p.cphase = .oddColumns ∨ s.lat.w.toNat % 2 = 0) →
    (pixelStep s).status.state = .fault → (pixelStep s).status.cause = .inOob

/-! ## Invariants -/

/-- R22, R34 to R37, R97, R149: every step keeps the invariant, for any adequate parameters (R42) and on this hardware:
the sequencer's position and cursors while `BUSY`, what holds in `DONE`, the fault record, and the canonical form of both
memories, which is the model's (notes/assumptions/7.md). -/
def Obligations.InvariantKept : Prop :=
  (∀ (p : Config.Params) (s t : MachineState p), Adequate p → Inv s → nextEvent s = .next t → Inv t) ∧
  ∀ s t : State, Inv s.toMachineState → step s = .next t → Inv t.toMachineState

/-- R44: the state after reset meets the invariant; the two memories with nothing listed are the model's choice
(notes/assumptions/6.md, 7.md). -/
def Obligations.InvariantAtReset : Prop :=
  (∀ p : Config.Params, Inv (MachineState.reset p)) ∧ Inv State.reset.toMachineState

/-- R54, R63: in a state that meets the invariant a step never stops for want of a byte of `OUT`: in `DONE` every byte
below `OUT_LEN` has a value. The fault is the model's (notes/assumptions/7.md). -/
def Obligations.OutputBytesHaveValues : Prop :=
  (∀ (p : Config.Params) (s : MachineState p) (a : Nat), Inv s → nextEvent s ≠ .fault (.outByteHasNoValue a)) ∧
  ∀ (s : State) (a : Nat), Inv s.toMachineState → step s ≠ .fault (.outByteHasNoValue a)

/-- R26: the transitions of `STATE`, and that nothing else changes it: a reset; while not `BUSY` an illegal word or a
conversion command, by the geometry; while `BUSY` a pixel step, to `DONE` with `INDEX` = `N` or to `FAULT` with a bounds
fault. -/
def Obligations.StateChangesOnlyAsListed : Prop :=
  ∀ s t : State, step s = .next t → t.status.state ≠ s.status.state →
    let n := s.cfg.width.toNat * s.cfg.height.toNat
    (∃ rest, s.schedule = .reset :: rest ∧ t.status.state = .idle) ∨
    (s.status.state ≠ .busy ∧ ∃ c rest, s.schedule = .wr 4 32 c :: rest ∧
      ((∃ e, decode c = .error e) ∧ t.status.state = .fault ∧ t.status.cause = .illegalCmd ∨
       (decode c = .ok .convertPlanar ∨ decode c = .ok .convertNv12) ∧
         (1431655765 < n ∧ t.status.state = .fault ∧ t.status.cause = .geom ∨
          0 < n ∧ n ≤ 1431655765 ∧ t.status.state = .busy ∨
          n = 0 ∧ t.status.state = .done))) ∨
    (s.status.state = .busy ∧
      (s.schedule = [] ∨ ∃ rest, s.schedule = .engine :: rest ∨ s.schedule = .wait :: rest) ∧
      (t.status.state = .done ∧ t.seq.index = t.lat.n ∨
       t.status.state = .fault ∧ (t.status.cause = .inOob ∨ t.status.cause = .outOob)))

/-- R39, R40, R37, R63, R172: which steps change the memories and `OUT_LEN`. `IN`: only an `LDIN` of some bytes while
not `BUSY`, or a reset. `OUT`: only an accepted conversion command, a turn of the engine while `BUSY`, or a reset.
`OUT_LEN`: only an accepted conversion command or a reset. What a reset does to the memories is the model's choice
(notes/assumptions/6.md, 7.md). -/
def Obligations.MemoriesChangeOnlyAsListed : Prop :=
  ∀ s t : State, step s = .next t →
    let load := ∃ addr values rest, s.schedule = .ldin addr values :: rest ∧ values ≠ [] ∧ s.status.state ≠ .busy
    let command := s.status.state ≠ .busy ∧ ∃ c rest, s.schedule = .wr 4 32 c :: rest ∧
      (decode c = .ok .convertPlanar ∨ decode c = .ok .convertNv12)
    let turn := s.status.state = .busy ∧
      (s.schedule = [] ∨ ∃ rest, s.schedule = .engine :: rest ∨ s.schedule = .wait :: rest)
    let reset := ∃ rest, s.schedule = .reset :: rest
    (t.inMem ≠ s.inMem → load ∨ reset) ∧
    (t.outMem ≠ s.outMem → command ∨ turn ∨ reset) ∧
    (t.status.outLen ≠ s.status.outLen → command ∨ reset)

/-! ## The whole operation -/

/-- R98: for an accepted geometry, `Start` followed by as many engine turns as there are pixels ends as the sequential
program of R98 does: the same bytes in `DONE`, the same cause, address and pixel in `FAULT`. -/
def Obligations.OperationMatchesReference : Prop :=
  ∀ (p : Config.Params) (layout : Layout) (s : MachineState p),
    let n := s.cfg.width.toNat * s.cfg.height.toNat
    Adequate p → n ≤ p.maxPixels →
    let t := engineTurns n (start layout s)
    match convertReference p layout s.cfg.width.toNat s.cfg.height.toNat s.cfg.bpp.toNat s.cfg.inLen.toNat (inByte s) with
    | .done out =>
      t.status.state = .done ∧ t.status.cause = .none ∧ out.length = 3 * n / 2 ∧
        ∀ a, a < 3 * n / 2 → t.outMem.read a = out[a]?
    | .inOob addr pix =>
      t.status.state = .fault ∧ t.status.cause = .inOob ∧ t.status.faddr.toNat = addr ∧ t.status.fpix.toNat = pix
    | .outOob addr pix =>
      t.status.state = .fault ∧ t.status.cause = .outOob ∧ t.status.faddr.toNat = addr ∧ t.status.fpix.toNat = pix

/-- R99, R194, R196: a running operation is over after as many engine turns as pixels are left, and no earlier unless it
faults. -/
def Obligations.OperationEnds : Prop :=
  ∀ (p : Config.Params) (s : MachineState p), Adequate p → Running s → s.status.state = .busy →
    let left := s.lat.n.toNat - s.seq.index.toNat
    (∀ k, k < left → (engineTurns k s).status.state = .busy ∨ (engineTurns k s).status.state = .fault) ∧
    ((engineTurns left s).status.state = .done ∨ (engineTurns left s).status.state = .fault)

/-- R184, R144, R145, R158: an operation from any state that is not `BUSY` ends in `DONE` exactly when the geometry is
accepted, the input covers every fetch, and the chroma stores fit the chroma region. -/
def Obligations.OperationSucceedsExactly : Prop :=
  ∀ (p : Config.Params) (layout : Layout) (s : MachineState p),
    let w := s.cfg.width.toNat
    let h := s.cfg.height.toNat
    let n := w * h
    let voff := if p.voffMode = .half then (n / 4 + 1) / 2 else n / 4
    let fits := match layout with
      | .planar => keptCount p.cphase w h + voff ≤ n / 2
      | .nv12 => 2 * keptCount p.cphase w h ≤ n / 2
    Adequate p →
    ((engineTurns n (start layout s)).status.state = .done ↔
      n ≤ p.maxPixels ∧ (n = 0 ∨ (n - 1) * s.cfg.bpp.toNat + 3 ≤ s.cfg.inLen.toNat ∧ fits))

/-- R139, R102 (a): in `DONE` the Y plane holds the luma of every pixel, in row-major order, whatever the layout and the
parameters; so the Y planes of the two commands are the same whenever both operations end in `DONE`. -/
def Obligations.FinalLumaPlane : Prop :=
  ∀ (p : Config.Params) (s : MachineState p) (m : Nat),
    let n := s.cfg.width.toNat * s.cfg.height.toNat
    let finish (layout : Layout) := engineTurns n (start layout s)
    Adequate p → m < n →
    (∀ layout, (finish layout).status.state = .done →
      (finish layout).outMem.read m =
        some (yuv p.kernel (inByte s (m * s.cfg.bpp.toNat)) (inByte s (m * s.cfg.bpp.toNat + 1))
          (inByte s (m * s.cfg.bpp.toNat + 2))).1) ∧
    ((finish .planar).status.state = .done → (finish .nv12).status.state = .done →
      (finish .planar).outMem.read m = (finish .nv12).outMem.read m)

/-- R140: the chroma region that an NV12 operation leaves in `DONE`: the kept pairs interleaved, then zeros. -/
def Obligations.FinalInterleavedChroma : Prop :=
  ∀ (p : Config.Params) (s t : MachineState p),
    let w := s.cfg.width.toNat
    let h := s.cfg.height.toNat
    let n := w * h
    let perRow := if p.cphase = .oddColumns then w / 2 else (w + 1) / 2
    let pixel (k : Nat) := 2 * (k / perRow) * w + (2 * (k % perRow) + p.cphase.parity)
    let colour (k : Nat) := yuv p.kernel (inByte s (pixel k * s.cfg.bpp.toNat)) (inByte s (pixel k * s.cfg.bpp.toNat + 1))
      (inByte s (pixel k * s.cfg.bpp.toNat + 2))
    Adequate p → t = engineTurns n (start .nv12 s) → t.status.state = .done →
    (∀ k, k < keptCount p.cphase w h →
      t.outMem.read (n + 2 * k) = some (colour k).2.1 ∧ t.outMem.read (n + 2 * k + 1) = some (colour k).2.2) ∧
    ∀ m, 2 * keptCount p.cphase w h ≤ m → m < n / 2 → t.outMem.read (n + m) = some 0

/-- R141, R142: the chroma region that a planar operation leaves in `DONE`, under either `VOFF_MODE`, when `VOFF` is not
0: every U, then the V samples that no later U replaced, zeros elsewhere. -/
def Obligations.FinalPlanarChroma : Prop :=
  ∀ (p : Config.Params) (s t : MachineState p),
    let w := s.cfg.width.toNat
    let h := s.cfg.height.toNat
    let n := w * h
    let voff := if p.voffMode = .half then (n / 4 + 1) / 2 else n / 4
    let kept := keptCount p.cphase w h
    let perRow := if p.cphase = .oddColumns then w / 2 else (w + 1) / 2
    let pixel (k : Nat) := 2 * (k / perRow) * w + (2 * (k % perRow) + p.cphase.parity)
    let colour (k : Nat) := yuv p.kernel (inByte s (pixel k * s.cfg.bpp.toNat)) (inByte s (pixel k * s.cfg.bpp.toNat + 1))
      (inByte s (pixel k * s.cfg.bpp.toNat + 2))
    Adequate p → t = engineTurns n (start .planar s) → t.status.state = .done → 0 < voff →
    ∀ m, m < n / 2 →
      t.outMem.read (n + m) =
        if m < kept then some (colour m).2.1
        else if max kept voff ≤ m ∧ m < kept + voff then some (colour (m - voff)).2.2
        else some 0

/-- R143: in planar layout `VOFF` = 0 exactly when there are at most 3 pixels, under either `VOFF_MODE`, and then the V
byte of each kept sample replaces its U byte. -/
def Obligations.FinalPlanarTinyImage : Prop :=
  ∀ (p : Config.Params) (s t : MachineState p),
    let w := s.cfg.width.toNat
    let h := s.cfg.height.toNat
    let n := w * h
    let perRow := if p.cphase = .oddColumns then w / 2 else (w + 1) / 2
    let pixel (k : Nat) := 2 * (k / perRow) * w + (2 * (k % perRow) + p.cphase.parity)
    Adequate p → t = engineTurns n (start .planar s) → t.status.state = .done →
    (t.lat.voff = 0 ↔ n ≤ 3) ∧
    (n ≤ 3 → ∀ k, k < keptCount p.cphase w h →
      t.outMem.read (n + k) =
        some (yuv p.kernel (inByte s (pixel k * s.cfg.bpp.toNat)) (inByte s (pixel k * s.cfg.bpp.toNat + 1))
          (inByte s (pixel k * s.cfg.bpp.toNat + 2))).2.2)

/-- R100: the outcome of an operation, accepted or not, depends on the configuration registers, the layout and the bytes
of `IN` below `IN_LEN` at the pixels' samples, and on nothing else: not on what `OUT`, the latched registers or the fault
record held, nor on bytes of `IN` that are never read. -/
def Obligations.OutcomeDependsOnInputsOnly : Prop :=
  ∀ (p : Config.Params) (layout : Layout) (s t : MachineState p) (k : Nat), Adequate p → SameInputs s t →
    let s' := engineTurns k (start layout s)
    let t' := engineTurns k (start layout t)
    s'.status = t'.status ∧ ∀ a, a < s'.status.outLen.toNat → s'.outMem.read a = t'.outMem.read a

/-- R84 with R98: a call of an entry point on a machine that is not `BUSY`: the set-up actions in any order, the command,
`WAIT`, `RD STATUS`, and, when that reads `DONE`, `RD OUT_LEN` and `RDOUT`. It returns the buffer of R98 exactly when
R98 ends in `DONE`, and otherwise terminates abnormally. That the engine moves only while the host waits is the model's
choice of a schedule (notes/assumptions/1.md, 16.md, 23.md). -/
def Obligations.CallReturnsBuffer : Prop :=
  ∀ (p : Config.Params) (i : Instr) (layout : Layout) (pixels : List Byte) (w h : BitVec p.dimBits)
    (bpp : BitVec p.bppBits) (setUp : List Event) (turns : Nat) (s : MachineState p),
    Adequate p → (i = .convertPlanar ∧ layout = .planar) ∨ (i = .convertNv12 ∧ layout = .nv12) →
    setUp.Perm (setUpEvents p pixels w h bpp) → pixels.length < 2 ^ p.addrBits → s.status.state ≠ .busy →
    let n := w.toNat * h.toNat
    let ending := convertReference p layout w.toNat h.toNat bpp.toNat pixels.length (fun a => pixels.getD a 0)
    n + 8 ≤ turns →
    (∀ out, n ≤ p.maxPixels → ending = .done out →
      ∃ t, hostCall turns setUp i s = .next (.returned out, t) ∧ t.status.state = .done) ∧
    (p.maxPixels < n ∨ (∀ out, ending ≠ .done out) →
      ∃ t, hostCall turns setUp i s = .next (.terminated, t) ∧ t.status.state = .fault)

/-! ## The host's side -/

/-- R27 to R37, R71, R72: a read of a whole register returns its value, with `STATUS` and `CAUSE` as their codes and
`CMD` as 0, in any state, and has no side effect on the machine. The record of the answer is the model's
(notes/assumptions/8.md). -/
def Obligations.RegisterReadReturnsValue : Prop :=
  ∀ (rest : List Event) (s : State),
    (s.schedule = .rd 0 32 :: rest → step s = .next { s with schedule := rest, hostData := .reg 32 s.cfg.width }) ∧
    (s.schedule = .rd 1 32 :: rest → step s = .next { s with schedule := rest, hostData := .reg 32 s.cfg.height }) ∧
    (s.schedule = .rd 2 32 :: rest → step s = .next { s with schedule := rest, hostData := .reg 32 s.cfg.bpp }) ∧
    (s.schedule = .rd 3 64 :: rest → step s = .next { s with schedule := rest, hostData := .reg 64 s.cfg.inLen }) ∧
    (s.schedule = .rd 4 32 :: rest → step s = .next { s with schedule := rest, hostData := .reg 32 0 }) ∧
    (s.schedule = .rd 5 32 :: rest → step s = .next { s with
      schedule := rest
      hostData := .reg 32 (match s.status.state with | .idle => 0 | .busy => 1 | .done => 2 | .fault => 3) }) ∧
    (s.schedule = .rd 6 32 :: rest → step s = .next { s with
      schedule := rest
      hostData := .reg 32 (match s.status.cause with
        | .none => 0 | .inOob => 1 | .outOob => 2 | .geom => 3 | .illegalCmd => 4) }) ∧
    (s.schedule = .rd 7 64 :: rest → step s = .next { s with schedule := rest, hostData := .reg 64 s.status.faddr }) ∧
    (s.schedule = .rd 8 32 :: rest → step s = .next { s with schedule := rest, hostData := .reg 32 s.status.fpix }) ∧
    (s.schedule = .rd 9 64 :: rest → step s = .next { s with schedule := rest, hostData := .reg 64 s.status.outLen })

/-- R27 to R31, R38, R193: a configuration register may be written in any state, and only that register changes, so a
running operation is not disturbed; a write to a read-only register is ignored. -/
def Obligations.RegisterWriteTakesEffect : Prop :=
  ∀ (v : Word32) (l : BitVec 64) (rest : List Event) (s : State),
    (s.schedule = .wr 0 32 v :: rest → step s = .next { s with schedule := rest, cfg := { s.cfg with width := v } }) ∧
    (s.schedule = .wr 1 32 v :: rest → step s = .next { s with schedule := rest, cfg := { s.cfg with height := v } }) ∧
    (s.schedule = .wr 2 32 v :: rest → step s = .next { s with schedule := rest, cfg := { s.cfg with bpp := v } }) ∧
    (s.schedule = .wr 3 64 l :: rest → step s = .next { s with schedule := rest, cfg := { s.cfg with inLen := l } }) ∧
    ((s.schedule = .wr 5 32 v :: rest ∨ s.schedule = .wr 6 32 v :: rest ∨ s.schedule = .wr 7 64 l :: rest ∨
        s.schedule = .wr 8 32 v :: rest ∨ s.schedule = .wr 9 64 l :: rest) →
      step s = .next { s with schedule := rest })

/-- R190: an access to a register number of 10 or more is refused, and so is an access of another width than the
register's. -/
def Obligations.UndefinedRegisterAccessRefused : Prop :=
  ∀ (num width : Nat) (v : BitVec width) (rest : List Event) (s : State),
    s.schedule = .wr num width v :: rest ∨ s.schedule = .rd num width :: rest →
    (10 ≤ num → step s = .refused (.noSuchRegister num)) ∧
    (num < 10 → width ≠ (if num = 3 ∨ num = 7 ∨ num = 9 then 64 else 32) →
      step s = .refused (.partialAccess num width))

/-- R64, R187, R47: `LDIN` of some bytes while not `BUSY` writes them in address order and changes nothing else; while
`BUSY` it is refused; beyond the addresses of `IN` it faults, which is the model's choice (notes/assumptions/14.md). That
`LDIN` of no bytes does nothing, in any state, is the model's choice too (notes/assumptions/20.md). -/
def Obligations.InputLoad : Prop :=
  ∀ (addr : Nat) (values : List Byte) (rest : List Event) (s : State), s.schedule = .ldin addr values :: rest →
    (values = [] → step s = .next { s with schedule := rest }) ∧
    (values ≠ [] → s.status.state = .busy → step s = .refused .inWrittenWhileBusy) ∧
    (values ≠ [] → s.status.state ≠ .busy → addr + values.length ≤ 2 ^ 64 →
      ∃ m, step s = .next { s with schedule := rest, inMem := m } ∧
        (∀ k, k < values.length → m.read (addr + k) = values[k]?) ∧
        ∀ a, a < addr ∨ addr + values.length ≤ a → m.read a = s.inMem.read a) ∧
    (values ≠ [] → s.status.state ≠ .busy → 2 ^ 64 < addr + values.length →
      step s = .fault (.inAddressOutsideSpace (max addr (2 ^ 64))))

/-- R187, R39, M6: a host read of `IN` returns, in any state, the bytes as the engine would fetch them, and changes
nothing else. The event is the model's (notes/assumptions/17.md), an unwritten byte is a free value
(notes/assumptions/6.md), and that a read of no bytes answers none at any address is the model's choice
(notes/assumptions/20.md). -/
def Obligations.InputReadBack : Prop :=
  ∀ (addr count : Nat) (rest : List Event) (s : State), s.schedule = .rdin addr count :: rest →
    count = 0 ∨ addr + count ≤ 2 ^ 64 →
    ∃ bytes : List Byte, step s = .next { s with schedule := rest, hostData := .bytes bytes } ∧
      bytes.length = count ∧ ∀ k, k < count → bytes[k]? = some (inByte s.toMachineState (addr + k))

/-- R63, R188: `RDOUT` of bytes below `OUT_LEN` in `DONE` returns them and changes nothing else, in a state that meets
the invariant; in another state, or at or beyond `OUT_LEN`, it is refused. What it does when no byte is read, refused
outside `DONE` and answered in `DONE` at any address, is the model's choice (notes/assumptions/20.md). -/
def Obligations.OutputReadOnlyInDone : Prop :=
  ∀ (addr count : Nat) (rest : List Event) (s : State), Inv s.toMachineState →
    s.schedule = .rdout addr count :: rest →
    (s.status.state ≠ .done → step s = .refused .outReadOutsideDone) ∧
    (s.status.state = .done → 0 < count → s.status.outLen.toNat < addr + count →
      step s = .refused .outReadBeyondLength) ∧
    (s.status.state = .done → count = 0 ∨ addr + count ≤ s.status.outLen.toNat →
      ∃ bytes : List Byte, step s = .next { s with schedule := rest, hostData := .bytes bytes } ∧
        bytes.length = count ∧ ∀ k, k < count → s.outMem.read (addr + k) = bytes[k]?)

/-- R189: the host has no write path to `OUT`; the model refuses it at every time (notes/assumptions/22.md). -/
def Obligations.HostNeverWritesOutput : Prop :=
  ∀ (addr : Nat) (values : List Byte) (rest : List Event) (s : State), s.schedule = .wrout addr values :: rest →
    step s = .refused .outWrittenByHost

/-- R180, R181, R182: a reset event, in any state, leaves every register at its value after reset, and lets no byte of
`IN` or `OUT` from before it count. That the internal registers take the model's reset values and that bytes from
before become free values is the model's choice (notes/assumptions/6.md, 7.md, 11.md). -/
def Obligations.ResetEventRestores : Prop :=
  ∀ (rest : List Event) (s : State), s.schedule = .reset :: rest →
    ∃ t, step s = .next t ∧ t.schedule = rest ∧ t.hostData = s.hostData ∧ t.epoch = s.epoch + 1 ∧
      t.cfg = { width := 0, height := 0, bpp := 0, inLen := 0 } ∧
      t.status = { state := .idle, cause := .none, faddr := 0, fpix := 0, outLen := 0 } ∧
      t.lat = State.reset.lat ∧ t.seq = State.reset.seq ∧ t.dp = State.reset.dp ∧
      (∀ a, t.inMem.read a = none ∧ inByte t.toMachineState a = Config.unwrittenIn (s.epoch + 1) a) ∧
      ∀ a, t.outMem.read a = none

/-- R44: the host-visible registers after reset. -/
def Obligations.ResetRegisterValues : Prop :=
  State.reset.cfg.width = 0 ∧ State.reset.cfg.height = 0 ∧ State.reset.cfg.bpp = 0 ∧ State.reset.cfg.inLen = 0 ∧
  readReg State.reset.toMachineState .cmd = .reg 32 0 ∧ readReg State.reset.toMachineState .status = .reg 32 0 ∧
  State.reset.status.state = .idle ∧ readReg State.reset.toMachineState .cause = .reg 32 0 ∧
  State.reset.status.cause = .none ∧
  State.reset.status.faddr = 0 ∧ State.reset.status.fpix = 0 ∧ State.reset.status.outLen = 0

/-- R83, R170: `WAIT` reads `STATUS`; it is over once the value is not `BUSY`, and until then it stays and the engine has
its turn. That a poll and a turn make one step is the model's choice (notes/assumptions/16.md). -/
def Obligations.WaitPollsStatus : Prop :=
  ∀ (rest : List Event) (s : State), s.schedule = .wait :: rest →
    (s.status.state ≠ .busy →
      step s = .next { s with schedule := rest, hostData := .reg 32 (statusWord s.status.state) }) ∧
    (s.status.state = .busy →
      step s = .next { toMachineState := pixelStep (s.withHostData (.reg 32 1)) })
end

