-- ==== Sys2Proof/Laws/State.lean ====
section
/-! SUPPORT. What each named update of the state does to each field, so that no later proof unfolds a record update. -/

namespace Sys2Proof.Machine

variable {p : Config.Params} (s : MachineState p)

@[simp] theorem MachineState.withCfg_cfg (v) : (MachineState.withCfg s v).cfg = v := rfl
@[simp] theorem MachineState.withCfg_status (v) : (MachineState.withCfg s v).status = s.status := rfl
@[simp] theorem MachineState.withCfg_lat (v) : (MachineState.withCfg s v).lat = s.lat := rfl
@[simp] theorem MachineState.withCfg_seq (v) : (MachineState.withCfg s v).seq = s.seq := rfl
@[simp] theorem MachineState.withCfg_dp (v) : (MachineState.withCfg s v).dp = s.dp := rfl
@[simp] theorem MachineState.withCfg_inMem (v) : (MachineState.withCfg s v).inMem = s.inMem := rfl
@[simp] theorem MachineState.withCfg_outMem (v) : (MachineState.withCfg s v).outMem = s.outMem := rfl
@[simp] theorem MachineState.withCfg_schedule (v) : (MachineState.withCfg s v).schedule = s.schedule := rfl
@[simp] theorem MachineState.withCfg_hostData (v) : (MachineState.withCfg s v).hostData = s.hostData := rfl
@[simp] theorem MachineState.withCfg_epoch (v) : (MachineState.withCfg s v).epoch = s.epoch := rfl

@[simp] theorem MachineState.withStatus_cfg (v) : (MachineState.withStatus s v).cfg = s.cfg := rfl
@[simp] theorem MachineState.withStatus_status (v) : (MachineState.withStatus s v).status = v := rfl
@[simp] theorem MachineState.withStatus_lat (v) : (MachineState.withStatus s v).lat = s.lat := rfl
@[simp] theorem MachineState.withStatus_seq (v) : (MachineState.withStatus s v).seq = s.seq := rfl
@[simp] theorem MachineState.withStatus_dp (v) : (MachineState.withStatus s v).dp = s.dp := rfl
@[simp] theorem MachineState.withStatus_inMem (v) : (MachineState.withStatus s v).inMem = s.inMem := rfl
@[simp] theorem MachineState.withStatus_outMem (v) : (MachineState.withStatus s v).outMem = s.outMem := rfl
@[simp] theorem MachineState.withStatus_schedule (v) : (MachineState.withStatus s v).schedule = s.schedule := rfl
@[simp] theorem MachineState.withStatus_hostData (v) : (MachineState.withStatus s v).hostData = s.hostData := rfl
@[simp] theorem MachineState.withStatus_epoch (v) : (MachineState.withStatus s v).epoch = s.epoch := rfl

@[simp] theorem MachineState.withLat_cfg (v) : (MachineState.withLat s v).cfg = s.cfg := rfl
@[simp] theorem MachineState.withLat_status (v) : (MachineState.withLat s v).status = s.status := rfl
@[simp] theorem MachineState.withLat_lat (v) : (MachineState.withLat s v).lat = v := rfl
@[simp] theorem MachineState.withLat_seq (v) : (MachineState.withLat s v).seq = s.seq := rfl
@[simp] theorem MachineState.withLat_dp (v) : (MachineState.withLat s v).dp = s.dp := rfl
@[simp] theorem MachineState.withLat_inMem (v) : (MachineState.withLat s v).inMem = s.inMem := rfl
@[simp] theorem MachineState.withLat_outMem (v) : (MachineState.withLat s v).outMem = s.outMem := rfl
@[simp] theorem MachineState.withLat_schedule (v) : (MachineState.withLat s v).schedule = s.schedule := rfl
@[simp] theorem MachineState.withLat_hostData (v) : (MachineState.withLat s v).hostData = s.hostData := rfl
@[simp] theorem MachineState.withLat_epoch (v) : (MachineState.withLat s v).epoch = s.epoch := rfl

@[simp] theorem MachineState.withSeq_cfg (v) : (MachineState.withSeq s v).cfg = s.cfg := rfl
@[simp] theorem MachineState.withSeq_status (v) : (MachineState.withSeq s v).status = s.status := rfl
@[simp] theorem MachineState.withSeq_lat (v) : (MachineState.withSeq s v).lat = s.lat := rfl
@[simp] theorem MachineState.withSeq_seq (v) : (MachineState.withSeq s v).seq = v := rfl
@[simp] theorem MachineState.withSeq_dp (v) : (MachineState.withSeq s v).dp = s.dp := rfl
@[simp] theorem MachineState.withSeq_inMem (v) : (MachineState.withSeq s v).inMem = s.inMem := rfl
@[simp] theorem MachineState.withSeq_outMem (v) : (MachineState.withSeq s v).outMem = s.outMem := rfl
@[simp] theorem MachineState.withSeq_schedule (v) : (MachineState.withSeq s v).schedule = s.schedule := rfl
@[simp] theorem MachineState.withSeq_hostData (v) : (MachineState.withSeq s v).hostData = s.hostData := rfl
@[simp] theorem MachineState.withSeq_epoch (v) : (MachineState.withSeq s v).epoch = s.epoch := rfl

@[simp] theorem MachineState.withDp_cfg (v) : (MachineState.withDp s v).cfg = s.cfg := rfl
@[simp] theorem MachineState.withDp_status (v) : (MachineState.withDp s v).status = s.status := rfl
@[simp] theorem MachineState.withDp_lat (v) : (MachineState.withDp s v).lat = s.lat := rfl
@[simp] theorem MachineState.withDp_seq (v) : (MachineState.withDp s v).seq = s.seq := rfl
@[simp] theorem MachineState.withDp_dp (v) : (MachineState.withDp s v).dp = v := rfl
@[simp] theorem MachineState.withDp_inMem (v) : (MachineState.withDp s v).inMem = s.inMem := rfl
@[simp] theorem MachineState.withDp_outMem (v) : (MachineState.withDp s v).outMem = s.outMem := rfl
@[simp] theorem MachineState.withDp_schedule (v) : (MachineState.withDp s v).schedule = s.schedule := rfl
@[simp] theorem MachineState.withDp_hostData (v) : (MachineState.withDp s v).hostData = s.hostData := rfl
@[simp] theorem MachineState.withDp_epoch (v) : (MachineState.withDp s v).epoch = s.epoch := rfl

@[simp] theorem MachineState.withIn_cfg (v) : (MachineState.withIn s v).cfg = s.cfg := rfl
@[simp] theorem MachineState.withIn_status (v) : (MachineState.withIn s v).status = s.status := rfl
@[simp] theorem MachineState.withIn_lat (v) : (MachineState.withIn s v).lat = s.lat := rfl
@[simp] theorem MachineState.withIn_seq (v) : (MachineState.withIn s v).seq = s.seq := rfl
@[simp] theorem MachineState.withIn_dp (v) : (MachineState.withIn s v).dp = s.dp := rfl
@[simp] theorem MachineState.withIn_inMem (v) : (MachineState.withIn s v).inMem = v := rfl
@[simp] theorem MachineState.withIn_outMem (v) : (MachineState.withIn s v).outMem = s.outMem := rfl
@[simp] theorem MachineState.withIn_schedule (v) : (MachineState.withIn s v).schedule = s.schedule := rfl
@[simp] theorem MachineState.withIn_hostData (v) : (MachineState.withIn s v).hostData = s.hostData := rfl
@[simp] theorem MachineState.withIn_epoch (v) : (MachineState.withIn s v).epoch = s.epoch := rfl

@[simp] theorem MachineState.withOut_cfg (v) : (MachineState.withOut s v).cfg = s.cfg := rfl
@[simp] theorem MachineState.withOut_status (v) : (MachineState.withOut s v).status = s.status := rfl
@[simp] theorem MachineState.withOut_lat (v) : (MachineState.withOut s v).lat = s.lat := rfl
@[simp] theorem MachineState.withOut_seq (v) : (MachineState.withOut s v).seq = s.seq := rfl
@[simp] theorem MachineState.withOut_dp (v) : (MachineState.withOut s v).dp = s.dp := rfl
@[simp] theorem MachineState.withOut_inMem (v) : (MachineState.withOut s v).inMem = s.inMem := rfl
@[simp] theorem MachineState.withOut_outMem (v) : (MachineState.withOut s v).outMem = v := rfl
@[simp] theorem MachineState.withOut_schedule (v) : (MachineState.withOut s v).schedule = s.schedule := rfl
@[simp] theorem MachineState.withOut_hostData (v) : (MachineState.withOut s v).hostData = s.hostData := rfl
@[simp] theorem MachineState.withOut_epoch (v) : (MachineState.withOut s v).epoch = s.epoch := rfl

@[simp] theorem MachineState.withSchedule_cfg (v) : (MachineState.withSchedule s v).cfg = s.cfg := rfl
@[simp] theorem MachineState.withSchedule_status (v) : (MachineState.withSchedule s v).status = s.status := rfl
@[simp] theorem MachineState.withSchedule_lat (v) : (MachineState.withSchedule s v).lat = s.lat := rfl
@[simp] theorem MachineState.withSchedule_seq (v) : (MachineState.withSchedule s v).seq = s.seq := rfl
@[simp] theorem MachineState.withSchedule_dp (v) : (MachineState.withSchedule s v).dp = s.dp := rfl
@[simp] theorem MachineState.withSchedule_inMem (v) : (MachineState.withSchedule s v).inMem = s.inMem := rfl
@[simp] theorem MachineState.withSchedule_outMem (v) : (MachineState.withSchedule s v).outMem = s.outMem := rfl
@[simp] theorem MachineState.withSchedule_schedule (v) : (MachineState.withSchedule s v).schedule = v := rfl
@[simp] theorem MachineState.withSchedule_hostData (v) : (MachineState.withSchedule s v).hostData = s.hostData := rfl
@[simp] theorem MachineState.withSchedule_epoch (v) : (MachineState.withSchedule s v).epoch = s.epoch := rfl

@[simp] theorem MachineState.withHostData_cfg (v) : (MachineState.withHostData s v).cfg = s.cfg := rfl
@[simp] theorem MachineState.withHostData_status (v) : (MachineState.withHostData s v).status = s.status := rfl
@[simp] theorem MachineState.withHostData_lat (v) : (MachineState.withHostData s v).lat = s.lat := rfl
@[simp] theorem MachineState.withHostData_seq (v) : (MachineState.withHostData s v).seq = s.seq := rfl
@[simp] theorem MachineState.withHostData_dp (v) : (MachineState.withHostData s v).dp = s.dp := rfl
@[simp] theorem MachineState.withHostData_inMem (v) : (MachineState.withHostData s v).inMem = s.inMem := rfl
@[simp] theorem MachineState.withHostData_outMem (v) : (MachineState.withHostData s v).outMem = s.outMem := rfl
@[simp] theorem MachineState.withHostData_schedule (v) : (MachineState.withHostData s v).schedule = s.schedule := rfl
@[simp] theorem MachineState.withHostData_hostData (v) : (MachineState.withHostData s v).hostData = v := rfl
@[simp] theorem MachineState.withHostData_epoch (v) : (MachineState.withHostData s v).epoch = s.epoch := rfl

@[simp] theorem MachineState.withSchedule_withSchedule (v w : List Event) :
    (s.withSchedule v).withSchedule w = s.withSchedule w := rfl

@[simp] theorem MachineState.withSchedule_self : s.withSchedule s.schedule = s := rfl

@[simp] theorem raise_cfg (f addr pix) : (raise f addr pix s).cfg = s.cfg := rfl
@[simp] theorem raise_lat (f addr pix) : (raise f addr pix s).lat = s.lat := rfl
@[simp] theorem raise_seq (f addr pix) : (raise f addr pix s).seq = s.seq := rfl
@[simp] theorem raise_dp (f addr pix) : (raise f addr pix s).dp = s.dp := rfl
@[simp] theorem raise_inMem (f addr pix) : (raise f addr pix s).inMem = s.inMem := rfl
@[simp] theorem raise_outMem (f addr pix) : (raise f addr pix s).outMem = s.outMem := rfl
@[simp] theorem raise_schedule (f addr pix) : (raise f addr pix s).schedule = s.schedule := rfl
@[simp] theorem raise_hostData (f addr pix) : (raise f addr pix s).hostData = s.hostData := rfl
@[simp] theorem raise_epoch (f addr pix) : (raise f addr pix s).epoch = s.epoch := rfl
@[simp] theorem raise_status (f addr pix) : (raise f addr pix s).status =
    { s.status with
      state := .fault, cause := f, faddr := BitVec.ofNat p.addrBits addr, fpix := BitVec.ofNat 32 pix } := rfl

@[simp] theorem Micro.andThen_cont (f : MachineState p → Micro p) : (Micro.cont s).andThen f = f s := rfl
@[simp] theorem Micro.andThen_ended (f : MachineState p → Micro p) : (Micro.ended s).andThen f = .ended s := rfl
@[simp] theorem Micro.state_cont : (Micro.cont s).state = s := rfl
@[simp] theorem Micro.state_ended : (Micro.ended s).state = s := rfl

/-! ## This hardware -/

@[simp] theorem onHardware_next (s : MachineState Config.hardware) :
    onHardware (.next s) = .next { toMachineState := s } := rfl
@[simp] theorem onHardware_fault (f : Fault) : onHardware (.fault f) = .fault f := rfl
@[simp] theorem onHardware_refused (r : Refusal) : onHardware (.refused r) = .refused r := rfl

/-- This hardware answers a next state exactly when the machine at its parameters does. -/
theorem onHardware_eq_next (r : Host.Outcome (MachineState Config.hardware) Fault Refusal) (t : State) :
    onHardware r = .next t ↔ r = .next t.toMachineState := by
  cases r with
  | next s => exact ⟨fun h => by cases h; rfl, fun h => by cases h; rfl⟩
  | fault f => simp
  | refused r => simp

theorem onHardware_eq_fault (r : Host.Outcome (MachineState Config.hardware) Fault Refusal) (f : Fault) :
    onHardware r = .fault f ↔ r = .fault f := by
  cases r <;> simp

/-- `exec` runs a decoded command as the machine of any parameters does. -/
theorem exec_eq (i : Instr) (s : State) : exec i s = onHardware (runCommand i s.toMachineState) := by
  cases i <;> rfl

end Sys2Proof.Machine
end

