-- ==== Sys2Proof/Laws/Arithmetic.lean ====
section
/-! SUPPORT. The arithmetic of the colour transform: the shift as a floor division, the ranges of the rows, and that
adequate accumulators hold the rows exactly. -/

namespace Sys2Proof.Machine

/-! ## Samples and bytes -/

@[simp] theorem sampleOf_eight (v : Byte) : sampleOf 8 v = v := by simp [sampleOf]

@[simp] theorem byteOf_eight (v : Byte) : byteOf v = v := by simp [byteOf]

theorem widen_sampleOf {bits : Nat} (h : bits = 8) (v : Byte) : widen (sampleOf bits v) = widen v := by
  subst h; simp

theorem byteOf_clamp {bits : Nat} (h : bits = 8) (x : Int) : byteOf (clamp bits x) = clamp 8 x := by
  subst h; simp

theorem widen_nonneg {bits : Nat} (v : BitVec bits) : 0 ≤ widen v := by simp [widen]

theorem widen_le (v : Byte) : widen v ≤ 255 := by
  have := v.isLt
  simp only [widen]; omega

/-! ## The rows -/

/-- The arithmetic shift by 8 is the floor division by 256 (R10). -/
theorem arithShiftRight_eight (x : Int) : arithShiftRight x 8 = x / 256 := by
  simp [arithShiftRight, Int.shiftRight_eq_div_pow]

/-- The luma row of this hardware in floor form (R107). -/
theorem lumaValue_eq {bits : Nat} (r g b : BitVec bits) :
    lumaValue Config.wired r g b = (77 * widen r + 150 * widen g + 29 * widen b + 128) / 256 := by
  simp [lumaValue, arithShiftRight_eight, rowSum]

/-- The U row of this hardware in floor form (R108). -/
theorem chromaUValue_eq {bits : Nat} (r g b : BitVec bits) :
    chromaUValue Config.wired r g b = (-43 * widen r + -84 * widen g + 127 * widen b + 128) / 256 + 128 := by
  simp [chromaUValue, arithShiftRight_eight, rowSum]

/-- The V row of this hardware in floor form (R109). -/
theorem chromaVValue_eq {bits : Nat} (r g b : BitVec bits) :
    chromaVValue Config.wired r g b = (127 * widen r + -106 * widen g + -21 * widen b + 128) / 256 + 128 := by
  simp [chromaVValue, arithShiftRight_eight, rowSum]

theorem lumaValue_range (r g b : Byte) :
    0 ≤ lumaValue Config.wired r g b ∧ lumaValue Config.wired r g b ≤ 255 := by
  have hr := widen_le r; have hg := widen_le g; have hb := widen_le b
  have hr' := widen_nonneg r; have hg' := widen_nonneg g; have hb' := widen_nonneg b
  rw [lumaValue_eq]; omega

theorem chromaUValue_range (r g b : Byte) :
    1 ≤ chromaUValue Config.wired r g b ∧ chromaUValue Config.wired r g b ≤ 255 := by
  have hr := widen_le r; have hg := widen_le g; have hb := widen_le b
  have hr' := widen_nonneg r; have hg' := widen_nonneg g; have hb' := widen_nonneg b
  rw [chromaUValue_eq]; omega

theorem chromaVValue_range (r g b : Byte) :
    1 ≤ chromaVValue Config.wired r g b ∧ chromaVValue Config.wired r g b ≤ 255 := by
  have hr := widen_le r; have hg := widen_le g; have hb := widen_le b
  have hr' := widen_nonneg r; have hg' := widen_nonneg g; have hb' := widen_nonneg b
  rw [chromaVValue_eq]; omega

/-- Two's complement of `w` bits holds every integer of its range exactly. -/
theorem toInt_ofInt_of_range (w : Nat) (x : Int) (hw : 0 < w) (hl : -2 ^ (w - 1) ≤ x) (hu : x < 2 ^ (w - 1)) :
    (BitVec.ofInt w x).toInt = x := by
  obtain ⟨k, rfl⟩ : ∃ k, w = k + 1 := ⟨w - 1, by omega⟩
  rw [BitVec.toInt_ofInt]
  simp only [Nat.add_sub_cancel] at hl hu
  apply Int.bmod_eq_of_le <;> simp [Int.pow_succ] <;> omega

/-- Accumulators of 17 bits or more hold any value from 0 to 255 exactly (R15, R116). -/
theorem fitsAccumulator_of_range {p : Config.Params} (hp : 17 ≤ p.accBits) (x : Int) (hl : 0 ≤ x) (hu : x ≤ 255) :
    FitsAccumulator p x := by
  have h : (2 : Int) ^ 16 ≤ 2 ^ (p.accBits - 1) := by
    exact_mod_cast Nat.pow_le_pow_right (by omega) (by omega : 16 ≤ p.accBits - 1)
  norm_num at h
  exact toInt_ofInt_of_range _ _ (by omega) (by omega) (by omega)

theorem wired_rows_fit {p : Config.Params} (hk : p.kernel = Config.wired) (hp : 17 ≤ p.accBits) (r g b : Byte) :
    FitsAccumulator p (lumaValue p.kernel r g b) ∧ FitsAccumulator p (chromaUValue p.kernel r g b) ∧
      FitsAccumulator p (chromaVValue p.kernel r g b) := by
  have h1 := lumaValue_range r g b
  have h2 := chromaUValue_range r g b
  have h3 := chromaVValue_range r g b
  rw [hk]
  exact ⟨fitsAccumulator_of_range hp _ (by omega) (by omega), fitsAccumulator_of_range hp _ (by omega) (by omega),
    fitsAccumulator_of_range hp _ (by omega) (by omega)⟩

/-- The clamp as a number (R112). -/
theorem clamp_toNat {bits : Nat} (h : 8 ≤ bits) (x : Int) :
    ((clamp bits x).toNat : Int) = if x < 0 then 0 else if 255 < x then 255 else x := by
  have hp : 2 ^ 8 ≤ 2 ^ bits := Nat.pow_le_pow_right (by omega) h
  unfold clamp
  split
  · simp
  · split
    · show ((BitVec.ofNat bits 255).toNat : Int) = _
      rw [BitVec.toNat_ofNat, Nat.mod_eq_of_lt (by omega)]; rfl
    · rw [BitVec.toNat_ofInt]
      have : x % ((2 ^ bits : Nat) : Int) = x := Int.emod_eq_of_lt (by omega) (by omega)
      rw [this]; omega

/-! ## The datapath between `FETCH` and `YSTORE` -/

variable {p : Config.Params}

/-- The state after the bytes `r`, `g`, `b` have been fetched, `INDEX` is incremented and the samples have gone through
`LUMA`, `CHROMA_U`, `CHROMA_V` and `CLAMP` (R95, R113). -/
def transformed (r g b : Byte) (s : MachineState p) : MachineState p :=
  clampStep (chromaV (chromaU (luma (incIndex (s.withDp { s.dp with
    r := sampleOf p.sampleBits r, g := sampleOf p.sampleBits g, b := sampleOf p.sampleBits b })))))

/-! The datapath changes its own registers and `INDEX`, and nothing else (R95). -/

section Frame

variable (r g b : Byte) (s : MachineState p)

@[simp] theorem transformed_cfg : (transformed r g b s).cfg = s.cfg := rfl
@[simp] theorem transformed_status : (transformed r g b s).status = s.status := rfl
@[simp] theorem transformed_lat : (transformed r g b s).lat = s.lat := rfl
@[simp] theorem transformed_seq : (transformed r g b s).seq = { s.seq with index := s.seq.index + 1 } := rfl
@[simp] theorem transformed_inMem : (transformed r g b s).inMem = s.inMem := rfl
@[simp] theorem transformed_outMem : (transformed r g b s).outMem = s.outMem := rfl
@[simp] theorem transformed_schedule : (transformed r g b s).schedule = s.schedule := rfl
@[simp] theorem transformed_hostData : (transformed r g b s).hostData = s.hostData := rfl
@[simp] theorem transformed_epoch : (transformed r g b s).epoch = s.epoch := rfl

/-- The micro-operations between `FETCH` and `YSTORE`, folded. -/
theorem transformed_fold :
    clampStep (chromaV (chromaU (luma (incIndex (s.withDp { s.dp with
      r := sampleOf p.sampleBits r, g := sampleOf p.sampleBits g, b := sampleOf p.sampleBits b }))))) =
      transformed r g b s := rfl

end Frame

/-- Adequate accumulators and sample registers give exactly `yuv` (R113). -/
theorem transformed_bytes (ha : Adequate p) (r g b : Byte) (s : MachineState p) :
    (byteOf (transformed r g b s).dp.yq, byteOf (transformed r g b s).dp.uq, byteOf (transformed r g b s).dp.vq) =
      yuv p.kernel r g b := by
  obtain ⟨h1, h2, h3⟩ := ha.rows r g b
  have hw : ∀ v, widen (sampleOf p.sampleBits v) = widen v := widen_sampleOf ha.samples
  let r' := sampleOf p.sampleBits r
  let g' := sampleOf p.sampleBits g
  let b' := sampleOf p.sampleBits b
  have e1 : lumaValue p.kernel r' g' b' = lumaValue p.kernel r g b := by simp only [r', g', b', lumaValue, rowSum, hw]
  have e2 : chromaUValue p.kernel r' g' b' = chromaUValue p.kernel r g b := by
    simp only [r', g', b', chromaUValue, rowSum, hw]
  have e3 : chromaVValue p.kernel r' g' b' = chromaVValue p.kernel r g b := by
    simp only [r', g', b', chromaVValue, rowSum, hw]
  show (byteOf (clamp _ (BitVec.toInt (BitVec.ofInt _ (lumaValue p.kernel r' g' b')))),
    byteOf (clamp _ (BitVec.toInt (BitVec.ofInt _ (chromaUValue p.kernel r' g' b')))),
    byteOf (clamp _ (BitVec.toInt (BitVec.ofInt _ (chromaVValue p.kernel r' g' b'))))) = _
  rw [e1, e2, e3]
  unfold FitsAccumulator at h1 h2 h3
  rw [h1, h2, h3, byteOf_clamp ha.samples, byteOf_clamp ha.samples, byteOf_clamp ha.samples]
  rfl

/-! ## This hardware -/

/-- The widths of this hardware are adequate (R52, R53, R116), whatever the accumulators' width from 17 bits up, the
offset of the V plane and the kept columns (D12, D1, D2). -/
theorem hardware_adequate (accBits : Nat) (h : 17 ≤ accBits) (v : Config.VoffMode) (c : Config.ColumnPhase) :
    Adequate { Config.hardware with accBits := accBits, voffMode := v, cphase := c } where
  samples := rfl
  pixels := by simp
  inputs := by norm_num
  outputs := by norm_num
  numbers := by norm_num
  rows := wired_rows_fit rfl h

theorem adequate_hardware : Adequate Config.hardware := hardware_adequate 18 (by decide) .half .oddColumns

end Sys2Proof.Machine
end

