-- ==== Sys2Proof/Laws/Encoding.lean ====
section
/-! SUPPORT. The command word and its fields as numbers (spec/30_encoding.md R67): the lemmas a proof about decoding
cites instead of opening bit vectors. -/

namespace Sys2Proof

/-- A command word as a number, from its fields. -/
theorem cmd32_toNat (rsvd : BitVec 30) (layout start : BitVec 1) :
    (cmd32 rsvd layout start).toNat = rsvd.toNat * 4 + layout.toNat * 2 + start.toNat := by
  have h : (cmd32 rsvd layout start).toNat = (rsvd.toNat <<< 1 ||| layout.toNat) <<< 1 ||| start.toNat := by
    show (rsvd ++ layout ++ start).toNat = _
    simp only [BitVec.toNat_append]
  rw [h, ← Nat.shiftLeft_add_eq_or_of_lt layout.isLt, ← Nat.shiftLeft_add_eq_or_of_lt start.isLt,
    Nat.shiftLeft_eq, Nat.shiftLeft_eq]
  omega

theorem rsvdField_toNat (c : Word32) : (rsvdField c).toNat = c.toNat / 4 := by
  have := c.isLt
  rw [rsvdField, BitVec.extractLsb'_toNat, Nat.shiftRight_eq_div_pow]; omega

theorem layoutField_toNat (c : Word32) : (layoutField c).toNat = c.toNat / 2 % 2 := by
  rw [layoutField, BitVec.extractLsb'_toNat, Nat.shiftRight_eq_div_pow]

theorem startField_toNat (c : Word32) : (startField c).toNat = c.toNat % 2 := by
  rw [startField, BitVec.extractLsb'_toNat, Nat.shiftRight_eq_div_pow]; omega

/-- Every word is the command word of its fields. -/
theorem cmd32_fields (c : Word32) : cmd32 (rsvdField c) (layoutField c) (startField c) = c := by
  apply BitVec.eq_of_toNat_eq
  rw [cmd32_toNat, rsvdField_toNat, layoutField_toNat, startField_toNat]; omega

@[simp] theorem rsvdField_cmd32 (rsvd : BitVec 30) (layout start : BitVec 1) :
    rsvdField (cmd32 rsvd layout start) = rsvd := by
  apply BitVec.eq_of_toNat_eq
  have := layout.isLt; have := start.isLt
  rw [rsvdField_toNat, cmd32_toNat]; omega

@[simp] theorem layoutField_cmd32 (rsvd : BitVec 30) (layout start : BitVec 1) :
    layoutField (cmd32 rsvd layout start) = layout := by
  apply BitVec.eq_of_toNat_eq
  have := layout.isLt; have := start.isLt
  rw [layoutField_toNat, cmd32_toNat]; omega

@[simp] theorem startField_cmd32 (rsvd : BitVec 30) (layout start : BitVec 1) :
    startField (cmd32 rsvd layout start) = start := by
  apply BitVec.eq_of_toNat_eq
  have := layout.isLt; have := start.isLt
  rw [startField_toNat, cmd32_toNat]; omega

/-- A one-bit field is 0 or 1. -/
theorem bit_cases (b : BitVec 1) : b = 0 ∨ b = 1 := by revert b; decide

end Sys2Proof
end

