-- ==== Sys2Proof/Laws/Memory.lean ====
section
/-! SUPPORT. Byte memories: what a read answers after each operation, and that every operation keeps the canonical
form. -/

namespace Sys2Proof.Machine

theorem lookupCell_insertCell (a b : Nat) (v : Byte) (cs : List Host.Cell) :
    lookupCell (insertCell a v cs) b = if a = b then some v else lookupCell cs b := by
  induction cs with
  | nil => simp [insertCell, lookupCell]
  | cons c cs ih =>
    simp only [insertCell]
    split
    · simp [lookupCell]
    · split
      · rename_i h; subst h; simp only [lookupCell]; split <;> rfl
      · rename_i h; simp only [lookupCell, ih]
        by_cases hb : c.1 = b
        · simp only [hb, if_true]; rw [if_neg (by omega)]
        · simp [hb]

theorem lookupCell_filter (f : Host.Cell → Bool) (b : Nat) (cs : List Host.Cell) (h : ∀ v w, f (b, v) = f (b, w)) :
    lookupCell (cs.filter f) b = if f (b, 0) then lookupCell cs b else none := by
  induction cs with
  | nil => simp [lookupCell]
  | cons c cs ih =>
    obtain ⟨k, w⟩ := c
    by_cases hk : k = b
    · subst hk
      have := h w 0
      by_cases hf : f (k, w) <;> simp_all [lookupCell]
    · by_cases hf : f (k, w) <;> simp [lookupCell, hf, hk, ih]

@[simp] theorem Memory.zeroed_write (m : Memory) (a v) : (m.write a v).zeroed = m.zeroed := by
  unfold Memory.write; split <;> rfl

@[simp] theorem Memory.zeroed_zeroFill (m : Memory) (n) : (m.zeroFill n).zeroed = max m.zeroed n := rfl

@[simp] theorem Memory.zeroed_writeBytes (m : Memory) (a vs) : (m.writeBytes a vs).zeroed = m.zeroed := by
  induction vs generalizing m a with
  | nil => rfl
  | cons v vs ih => simp [Memory.writeBytes, ih]

/-- A byte that is written reads as it was written; every other byte reads as before. -/
theorem Memory.read_write (m : Memory) (a b : Nat) (v : Byte) :
    (m.write a v).read b = if a = b then some v else m.read b := by
  unfold Memory.write
  by_cases h : m.unlisted a = some v
  · simp only [if_pos h, Memory.read, eraseCell]
    rw [lookupCell_filter _ _ _ (by simp)]
    by_cases hab : a = b
    · subst hab; simpa [Memory.unlisted] using h
    · simp [Ne.symm hab, hab, Memory.unlisted]
  · simp only [if_neg h, Memory.read, lookupCell_insertCell]
    by_cases hab : a = b <;> simp [hab, Memory.unlisted]

/-- The zero-fill clears what lies below its length and touches nothing else (R54). -/
theorem Memory.read_zeroFill (m : Memory) (n b : Nat) :
    (m.zeroFill n).read b = if b < n then some 0 else m.read b := by
  unfold Memory.zeroFill Memory.read
  rw [lookupCell_filter _ _ _ (by simp)]
  by_cases h : b < n
  · simp [h, Nat.not_le.2 h, Memory.unlisted]
  · simp [Nat.le_of_not_lt h, h, Memory.unlisted]

/-- Consecutive writes: the written range reads as the list, every other byte reads as before. -/
theorem Memory.read_writeBytes (m : Memory) (a b : Nat) (vs : List Byte) :
    (m.writeBytes a vs).read b = if a ≤ b ∧ b < a + vs.length then vs[b - a]? else m.read b := by
  induction vs generalizing m a with
  | nil => rw [if_neg (by simp)]; rfl
  | cons v vs ih =>
    simp only [Memory.writeBytes, ih, Memory.read_write, List.length_cons]
    by_cases h0 : a = b
    · subst h0; simp
    · by_cases h1 : a + 1 ≤ b ∧ b < a + 1 + vs.length
      · have h2 : a ≤ b ∧ b < a + (vs.length + 1) := by omega
        have h3 : b - a = (b - (a + 1)) + 1 := by omega
        rw [if_pos h1, if_pos h2, h3, List.getElem?_cons_succ]
      · have h2 : ¬ (a ≤ b ∧ b < a + (vs.length + 1)) := by omega
        rw [if_neg h1, if_neg h2, if_neg h0]

/-- Below the zero-fill every byte has a value. -/
theorem Memory.read_of_lt_zeroed (m : Memory) (a : Nat) (h : a < m.zeroed) : ∃ v, m.read a = some v := by
  unfold Memory.read
  split
  · exact ⟨_, rfl⟩
  · exact ⟨0, by simp [Memory.unlisted, h]⟩

theorem mem_insertCell (a : Nat) (v : Byte) (cs : List Host.Cell) (c : Host.Cell)
    (h : c ∈ insertCell a v cs) : c = (a, v) ∨ c ∈ cs := by
  induction cs with
  | nil => simpa [insertCell] using h
  | cons d ds ih =>
    simp only [insertCell] at h
    split at h
    · simpa using h
    · split at h
      · rcases List.mem_cons.1 h with h | h
        · exact .inl h
        · exact .inr (List.mem_cons_of_mem _ h)
      · rcases List.mem_cons.1 h with h | h
        · exact .inr (h ▸ List.mem_cons_self)
        · exact (ih h).imp id (List.mem_cons_of_mem _)

theorem pairwise_insertCell (a : Nat) (v : Byte) (cs : List Host.Cell)
    (h : cs.Pairwise (fun c d => c.1 < d.1)) : (insertCell a v cs).Pairwise (fun c d => c.1 < d.1) := by
  induction cs with
  | nil => simp [insertCell]
  | cons d ds ih =>
    rw [List.pairwise_cons] at h
    simp only [insertCell]
    split
    · rename_i hlt
      refine List.pairwise_cons.2 ⟨fun e he => ?_, List.pairwise_cons.2 h⟩
      rcases List.mem_cons.1 he with he | he
      · exact he ▸ hlt
      · exact Nat.lt_trans hlt (h.1 e he)
    · split
      · rename_i heq; exact List.pairwise_cons.2 ⟨fun e he => heq ▸ h.1 e he, h.2⟩
      · refine List.pairwise_cons.2 ⟨fun e he => ?_, ih h.2⟩
        rcases mem_insertCell _ _ _ _ he with he | he
        · subst he; show d.1 < a; omega
        · exact h.1 e he

theorem Memory.wf_blank : Memory.blank.wf := ⟨List.Pairwise.nil, by simp [Memory.blank]⟩

/-- A write keeps the canonical form. -/
theorem Memory.wf_write (m : Memory) (a : Nat) (v : Byte) (h : m.wf) : (m.write a v).wf := by
  unfold Memory.write
  split
  · exact ⟨h.1.filter _, fun c hc => h.2 c (List.mem_filter.1 hc).1⟩
  · rename_i hv
    refine ⟨pairwise_insertCell _ _ _ h.1, fun c hc => ?_⟩
    rcases mem_insertCell _ _ _ _ hc with hc | hc
    · subst hc; exact hv
    · exact h.2 c hc

/-- The zero-fill keeps the canonical form. -/
theorem Memory.wf_zeroFill (m : Memory) (n : Nat) (h : m.wf) : (m.zeroFill n).wf := by
  refine ⟨h.1.filter _, fun c hc => ?_⟩
  obtain ⟨hc, hn⟩ := List.mem_filter.1 hc
  have h2 := h.2 c hc
  simp only [decide_eq_true_eq] at hn
  simp only [Memory.unlisted, Memory.zeroFill, lt_max_iff] at h2 ⊢
  simpa [Nat.not_lt.2 hn] using h2

/-- Consecutive writes keep the canonical form. -/
theorem Memory.wf_writeBytes (m : Memory) (a : Nat) (vs : List Byte) (h : m.wf) : (m.writeBytes a vs).wf := by
  induction vs generalizing m a with
  | nil => exact h
  | cons v vs ih => exact ih _ _ (Memory.wf_write _ _ _ h)

/-- Reading `OUT` for the host: it answers exactly the bytes that the addresses read as, when all have a value. -/
theorem outBytes_ok (m : Memory) (addr k : Nat) (vs : List Byte) :
    outBytes m addr k = .ok vs ↔ vs.length = k ∧ ∀ i, i < k → m.read (addr + i) = vs[i]? := by
  induction k generalizing addr vs with
  | zero => cases vs <;> simp [outBytes]
  | succ k ih =>
    unfold outBytes
    constructor
    · intro h
      split at h
      · cases h
      · rename_i v hv
        split at h
        · rename_i ws hws
          cases h
          obtain ⟨hl, hr⟩ := (ih _ _).1 hws
          refine ⟨by simp [hl], fun i hi => ?_⟩
          cases i with
          | zero => simpa using hv
          | succ i => simpa [Nat.add_comm, Nat.add_left_comm] using hr i (by omega)
        · cases h
    · rintro ⟨hl, hr⟩
      cases vs with
      | nil => simp at hl
      | cons v ws =>
        have h0 := hr 0 (by omega)
        simp only [Nat.add_zero, List.getElem?_cons_zero] at h0
        have h1 : outBytes m (addr + 1) k = .ok ws :=
          (ih _ _).2 ⟨by simpa using hl, fun i hi => by
            simpa [Nat.add_comm, Nat.add_left_comm] using hr (i + 1) (by omega)⟩
        simp [h0, h1]

/-- Reading `OUT` for the host: the address it reports is one that has no value. -/
theorem outBytes_error (m : Memory) (addr k a : Nat) (h : outBytes m addr k = .error a) :
    addr ≤ a ∧ a < addr + k ∧ m.read a = none := by
  induction k generalizing addr with
  | zero => simp [outBytes] at h
  | succ k ih =>
    unfold outBytes at h
    split at h
    · cases h; exact ⟨Nat.le_refl _, by omega, ‹_›⟩
    · split at h
      · cases h
      · cases h
        obtain ⟨h1, h2, h3⟩ := ih _ ‹_›
        exact ⟨by omega, by omega, h3⟩

end Sys2Proof.Machine
end

