-- ==== Sys2Proof/Laws/PixelStep.lean ====
section
/-! SUPPORT. What one pixel step can do, said once: the access primitives, each micro-operation, and the whole step by
cases (spec/40_operations.md R95). -/

namespace Sys2Proof.Machine

variable {p : Config.Params}

/-! ## The access primitives -/

theorem inRead_oob (n a) (s : MachineState p) (k) (h : s.lat.l.toNat ≤ a) :
    inRead n a s k = .ended (raise .inOob a n s) := by
  simp [inRead, h]

theorem inRead_ok (n a) (s : MachineState p) (k) (h : a < s.lat.l.toNat) : inRead n a s k = k (inByte s a) := by
  simp [inRead, Nat.not_le.2 h]

theorem outWrite_oob (n a v) (s : MachineState p) (h : s.lat.olen.toNat ≤ a) :
    outWrite n a v s = .ended (raise .outOob a n s) := by
  simp [outWrite, h]

theorem outWrite_ok (n a v) (s : MachineState p) (h : a < s.lat.olen.toNat) :
    outWrite n a v s = .cont (s.withOut (s.outMem.write a v)) := by
  simp [outWrite, Nat.not_le.2 h]

/-! ## The fetch -/

/-- A fetch with a read out of bounds: the first address at or beyond `L` is reported (R105, R158). -/
theorem fetch_oob (n : Nat) (s : MachineState p) (h : s.lat.l.toNat ≤ n * s.lat.s.toNat + 2) :
    fetch n s = .ended (raise .inOob (max s.lat.l.toNat (n * s.lat.s.toNat)) n s) := by
  unfold fetch fetchAddress
  by_cases h0 : s.lat.l.toNat ≤ n * s.lat.s.toNat + 0
  · rw [inRead_oob _ _ _ _ h0, Nat.max_eq_right (by omega), Nat.add_zero]
  · rw [inRead_ok _ _ _ _ (by omega)]
    by_cases h1 : s.lat.l.toNat ≤ n * s.lat.s.toNat + 1
    · rw [inRead_oob _ _ _ _ h1, Nat.max_eq_left (by omega)]
      congr 2; omega
    · rw [inRead_ok _ _ _ _ (by omega), inRead_oob _ _ _ _ (by omega), Nat.max_eq_left (by omega)]
      congr 2; omega

/-- A fetch in bounds loads the three samples (R105). -/
theorem fetch_ok (n : Nat) (s : MachineState p) (h : n * s.lat.s.toNat + 2 < s.lat.l.toNat) :
    fetch n s = .cont (s.withDp { s.dp with
      r := sampleOf p.sampleBits (inByte s (n * s.lat.s.toNat))
      g := sampleOf p.sampleBits (inByte s (n * s.lat.s.toNat + 1))
      b := sampleOf p.sampleBits (inByte s (n * s.lat.s.toNat + 2)) }) := by
  unfold fetch fetchAddress
  rw [inRead_ok _ _ _ _ (by omega), inRead_ok _ _ _ _ (by omega), inRead_ok _ _ _ _ (by omega), Nat.add_zero]

/-! ## The chroma store -/

/-- The chroma store in planar layout, all cases (R136). -/
theorem cstorePlanar_eq (n : Nat) (s : MachineState p) :
    cstorePlanar n s =
      if s.lat.olen.toNat ≤ s.seq.ccur.toNat then .ended (raise .outOob s.seq.ccur.toNat n s)
      else if s.lat.olen.toNat ≤ s.seq.ccur.toNat + s.lat.voff.toNat then
        .ended (raise .outOob (s.seq.ccur.toNat + s.lat.voff.toNat) n
          (s.withOut (s.outMem.write s.seq.ccur.toNat (byteOf s.dp.uq))))
      else
        .cont (incCcur (s.withOut ((s.outMem.write s.seq.ccur.toNat (byteOf s.dp.uq)).write
          (s.seq.ccur.toNat + s.lat.voff.toNat) (byteOf s.dp.vq)))) := by
  unfold cstorePlanar
  split
  · rw [outWrite_oob _ _ _ _ ‹_›]; rfl
  · rw [outWrite_ok _ _ _ _ (by omega)]
    simp only [Micro.andThen_cont, MachineState.withOut_seq, MachineState.withOut_lat, MachineState.withOut_dp]
    split
    · rw [outWrite_oob _ _ _ _ (by simpa using ‹_›)]; rfl
    · rw [outWrite_ok _ _ _ _ (by simp; omega)]; rfl

/-- The chroma store in NV12 layout, all cases (R137). -/
theorem cstoreNv12_eq (n : Nat) (s : MachineState p) :
    cstoreNv12 n s =
      if s.lat.olen.toNat ≤ s.seq.ccur.toNat then .ended (raise .outOob s.seq.ccur.toNat n s)
      else if s.lat.olen.toNat ≤ (s.seq.ccur + 1).toNat then
        .ended (raise .outOob (s.seq.ccur + 1).toNat n
          (incCcur (s.withOut (s.outMem.write s.seq.ccur.toNat (byteOf s.dp.uq)))))
      else
        .cont (incCcur (incCcur (s.withOut ((s.outMem.write s.seq.ccur.toNat (byteOf s.dp.uq)).write
          (s.seq.ccur + 1).toNat (byteOf s.dp.vq))))) := by
  unfold cstoreNv12
  split
  · rw [outWrite_oob _ _ _ _ ‹_›]; rfl
  · rw [outWrite_ok _ _ _ _ (by omega)]
    simp only [Micro.andThen_cont]
    split
    · rw [outWrite_oob _ _ _ _ (by exact ‹_›)]; rfl
    · rw [outWrite_ok _ _ _ _ (Nat.lt_of_not_le ‹_›)]; rfl

/-! ## The whole step -/

/-- The sequencer after a pixel step that ends without a fault: the traversal of R96, both cursors of R95. -/
def nextSeq (s : MachineState p) (ccur : BitVec p.addrBits) : Sequencer p :=
  { j := if s.seq.i.toNat + 1 < s.lat.w.toNat then s.seq.j else s.seq.j + 1
    i := if s.seq.i.toNat + 1 < s.lat.w.toNat then s.seq.i + 1 else 0
    index := s.seq.index + 1
    ycur := s.seq.ycur + 1
    ccur := ccur }

/-- The state after a pixel step that ends without a fault, given what it stored and its chroma cursor. -/
def landed (s : MachineState p) (dp : Datapath p) (out : Memory) (ccur : BitVec p.addrBits) : MachineState p :=
  { s with
    dp := dp, outMem := out, seq := nextSeq s ccur
    status := { s.status with
      state := if s.seq.index + 1 = s.lat.n then .done else s.status.state } }

/-- The samples of the current pixel, converted (R113). -/
def currentYuv (s : MachineState p) : Byte × Byte × Byte :=
  yuv p.kernel (inByte s (s.seq.index.toNat * s.lat.s.toNat)) (inByte s (s.seq.index.toNat * s.lat.s.toNat + 1))
    (inByte s (s.seq.index.toNat * s.lat.s.toNat + 2))

/-- The datapath at the end of a pixel step (R14 to R16, R25). -/
def finalDp (s : MachineState p) : Datapath p :=
  { (transformed (inByte s (s.seq.index.toNat * s.lat.s.toNat)) (inByte s (s.seq.index.toNat * s.lat.s.toNat + 1))
      (inByte s (s.seq.index.toNat * s.lat.s.toNat + 2)) s).dp with
    cgate := gate p.cphase s.seq.j.toNat (s.seq.index + 1).toNat }

@[simp] theorem finalDp_cgate (s : MachineState p) :
    (finalDp s).cgate = gate p.cphase s.seq.j.toNat (s.seq.index + 1).toNat := rfl

/-- The three bytes that a pixel step stores, at adequate widths (R113). -/
theorem finalDp_bytes (ha : Adequate p) (s : MachineState p) :
    (byteOf (finalDp s).yq, byteOf (finalDp s).uq, byteOf (finalDp s).vq) = currentYuv s := by
  simp only [finalDp]
  exact transformed_bytes ha _ _ _ s

/-- The state after the luma store and the gate, before the chroma store (R95). -/
def lumaStored (s : MachineState p) : MachineState p :=
  { s with
    dp := finalDp s
    outMem := s.outMem.write s.seq.ycur.toNat (byteOf (finalDp s).yq)
    seq := { s.seq with index := s.seq.index + 1, ycur := s.seq.ycur + 1 } }

/-- The luma store and the gate lead to that state (R95, R125, R135). -/
theorem lumaStored_eq (s : MachineState p) :
    lumaStored s =
      let t := transformed (inByte s (s.seq.index.toNat * s.lat.s.toNat)) (inByte s (s.seq.index.toNat * s.lat.s.toNat + 1))
        (inByte s (s.seq.index.toNat * s.lat.s.toNat + 2)) s
      cgate (incYcur (t.withOut (t.outMem.write t.seq.ycur.toNat (byteOf t.dp.yq)))) := by
  simp [lumaStored, finalDp, cgate, incYcur, MachineState.withSeq, MachineState.withOut, MachineState.withDp]

/-- A pixel step whose fetch is out of bounds takes `IN_OOB` and changes nothing else (R95, R158, R165). -/
theorem pixelStep_inOob (s : MachineState p)
    (h : s.lat.l.toNat ≤ s.seq.index.toNat * s.lat.s.toNat + 2) :
    pixelStep s = raise .inOob (max s.lat.l.toNat (s.seq.index.toNat * s.lat.s.toNat)) s.seq.index.toNat s := by
  simp [pixelStep, pixelMicro, fetch_oob _ _ h]

/-- A pixel step whose fetch and luma store are in bounds goes on to the chroma store (R95). -/
theorem pixelStep_inBounds (s : MachineState p)
    (h : s.seq.index.toNat * s.lat.s.toNat + 2 < s.lat.l.toNat) (hy : s.seq.ycur.toNat < s.lat.olen.toNat) :
    pixelStep s =
      ((chromaStore s.seq.index.toNat (lumaStored s)).andThen fun s => .cont (advance s)).state := by
  simp only [pixelStep, pixelMicro, fetch_ok _ _ h, Micro.andThen_cont, transformed_fold]
  rw [ystore, outWrite_ok _ _ _ _ (by exact hy)]
  simp only [Micro.andThen_cont]
  rw [lumaStored_eq]

/-- A pixel step whose luma store is out of bounds, which no running operation takes (R95, R146, R159). -/
theorem pixelStep_luma_oob (s : MachineState p)
    (h : s.seq.index.toNat * s.lat.s.toNat + 2 < s.lat.l.toNat) (hy : s.lat.olen.toNat ≤ s.seq.ycur.toNat) :
    pixelStep s =
      raise .outOob s.seq.ycur.toNat s.seq.index.toNat
        (transformed (inByte s (s.seq.index.toNat * s.lat.s.toNat)) (inByte s (s.seq.index.toNat * s.lat.s.toNat + 1))
          (inByte s (s.seq.index.toNat * s.lat.s.toNat + 2)) s) := by
  simp only [pixelStep, pixelMicro, fetch_ok _ _ h, Micro.andThen_cont, transformed_fold]
  rw [ystore, outWrite_oob _ _ _ _ (by exact hy)]
  rfl

/-- What the datapath computes does not depend on `OUT`. -/
@[simp] theorem finalDp_withOut (s : MachineState p) (m : Memory) : finalDp (s.withOut m) = finalDp s := rfl

theorem advance_eq (s : MachineState p) :
    advance s =
      { s with
        seq := { s.seq with
          j := if s.seq.i.toNat + 1 < s.lat.w.toNat then s.seq.j else s.seq.j + 1
          i := if s.seq.i.toNat + 1 < s.lat.w.toNat then s.seq.i + 1 else 0 }
        status := { s.status with state := if s.seq.index = s.lat.n then .done else s.status.state } } := by
  unfold advance advancePosition
  by_cases hi : s.seq.i.toNat + 1 < s.lat.w.toNat <;> by_cases hn : s.seq.index = s.lat.n <;>
    simp [hi, hn, MachineState.withSeq, MachineState.withStatus]

/-- A pixel that fails the gate: only its luma is stored (R95, R125, R135). -/
theorem pixelStep_dropped (s : MachineState p)
    (h : s.seq.index.toNat * s.lat.s.toNat + 2 < s.lat.l.toNat) (hy : s.seq.ycur.toNat < s.lat.olen.toNat)
    (hg : gate p.cphase s.seq.j.toNat (s.seq.index + 1).toNat = false) :
    pixelStep s =
      landed s (finalDp s) (s.outMem.write s.seq.ycur.toNat (byteOf (finalDp s).yq)) s.seq.ccur := by
  rw [pixelStep_inBounds s h hy, chromaStore, if_neg (by rw [show (lumaStored s).dp.cgate = false from hg]; simp)]
  simp [advance_eq, landed, lumaStored, nextSeq]

/-- A kept pixel in planar layout whose stores fit (R95, R136). -/
theorem pixelStep_planar (s : MachineState p)
    (h : s.seq.index.toNat * s.lat.s.toNat + 2 < s.lat.l.toNat) (hy : s.seq.ycur.toNat < s.lat.olen.toNat)
    (hg : gate p.cphase s.seq.j.toNat (s.seq.index + 1).toNat = true) (hm : s.lat.mode = .planar)
    (hc : s.seq.ccur.toNat + s.lat.voff.toNat < s.lat.olen.toNat) :
    pixelStep s =
      landed s (finalDp s)
        (((s.outMem.write s.seq.ycur.toNat (byteOf (finalDp s).yq)).write s.seq.ccur.toNat (byteOf (finalDp s).uq)).write
          (s.seq.ccur.toNat + s.lat.voff.toNat) (byteOf (finalDp s).vq)) (s.seq.ccur + 1) := by
  rw [pixelStep_inBounds s h hy, chromaStore, if_pos (show (lumaStored s).dp.cgate = true from hg)]
  simp only [lumaStored, hm, cstorePlanar_eq]
  rw [if_neg (by omega), if_neg (by omega)]
  simp [advance_eq, landed, nextSeq, incCcur, MachineState.withOut, MachineState.withSeq]

/-- A kept pixel in planar layout whose first or second store does not fit (R136, R159, R167). -/
theorem pixelStep_planar_oob (s : MachineState p)
    (h : s.seq.index.toNat * s.lat.s.toNat + 2 < s.lat.l.toNat) (hy : s.seq.ycur.toNat < s.lat.olen.toNat)
    (hg : gate p.cphase s.seq.j.toNat (s.seq.index + 1).toNat = true) (hm : s.lat.mode = .planar)
    (hc : s.lat.olen.toNat ≤ s.seq.ccur.toNat + s.lat.voff.toNat) :
    pixelStep s =
      if s.lat.olen.toNat ≤ s.seq.ccur.toNat then
        raise .outOob s.seq.ccur.toNat s.seq.index.toNat (lumaStored s)
      else
        raise .outOob (s.seq.ccur.toNat + s.lat.voff.toNat) s.seq.index.toNat
          ((lumaStored s).withOut
            ((s.outMem.write s.seq.ycur.toNat (byteOf (finalDp s).yq)).write s.seq.ccur.toNat (byteOf (finalDp s).uq))) := by
  rw [pixelStep_inBounds s h hy, chromaStore, if_pos (show (lumaStored s).dp.cgate = true from hg)]
  simp only [lumaStored, hm, cstorePlanar_eq]
  split
  · rfl
  · rfl

/-- A kept pixel in NV12 layout whose stores fit (R95, R137). -/
theorem pixelStep_nv12 (s : MachineState p)
    (h : s.seq.index.toNat * s.lat.s.toNat + 2 < s.lat.l.toNat) (hy : s.seq.ycur.toNat < s.lat.olen.toNat)
    (hg : gate p.cphase s.seq.j.toNat (s.seq.index + 1).toNat = true) (hm : s.lat.mode = .nv12)
    (hc : s.seq.ccur.toNat < s.lat.olen.toNat) (hc' : (s.seq.ccur + 1).toNat < s.lat.olen.toNat) :
    pixelStep s =
      landed s (finalDp s)
        (((s.outMem.write s.seq.ycur.toNat (byteOf (finalDp s).yq)).write s.seq.ccur.toNat (byteOf (finalDp s).uq)).write
          (s.seq.ccur + 1).toNat (byteOf (finalDp s).vq)) (s.seq.ccur + 1 + 1) := by
  rw [pixelStep_inBounds s h hy, chromaStore, if_pos (show (lumaStored s).dp.cgate = true from hg)]
  simp only [lumaStored, hm, cstoreNv12_eq]
  rw [if_neg (by omega), if_neg (by omega)]
  simp [advance_eq, landed, nextSeq, incCcur, MachineState.withOut, MachineState.withSeq]

/-- A kept pixel in NV12 layout whose first or second store does not fit (R137, R159, R167). -/
theorem pixelStep_nv12_oob (s : MachineState p)
    (h : s.seq.index.toNat * s.lat.s.toNat + 2 < s.lat.l.toNat) (hy : s.seq.ycur.toNat < s.lat.olen.toNat)
    (hg : gate p.cphase s.seq.j.toNat (s.seq.index + 1).toNat = true) (hm : s.lat.mode = .nv12)
    (hc : s.lat.olen.toNat ≤ s.seq.ccur.toNat ∨ s.lat.olen.toNat ≤ (s.seq.ccur + 1).toNat) :
    pixelStep s =
      if s.lat.olen.toNat ≤ s.seq.ccur.toNat then
        raise .outOob s.seq.ccur.toNat s.seq.index.toNat (lumaStored s)
      else
        raise .outOob (s.seq.ccur + 1).toNat s.seq.index.toNat
          (incCcur ((lumaStored s).withOut
            ((s.outMem.write s.seq.ycur.toNat (byteOf (finalDp s).yq)).write s.seq.ccur.toNat (byteOf (finalDp s).uq)))) := by
  rw [pixelStep_inBounds s h hy, chromaStore, if_pos (show (lumaStored s).dp.cgate = true from hg)]
  simp only [lumaStored, hm, cstoreNv12_eq]
  split
  · rfl
  · rw [if_pos (by omega)]; rfl

/-- What no pixel step changes, whatever it does: the configuration registers, the latched parameters, `IN`, `OUT_LEN`
and the model's own fields (R23, R37, R39). -/
abbrev SameEnv (s t : MachineState p) : Prop :=
  t.cfg = s.cfg ∧ t.lat = s.lat ∧ t.inMem = s.inMem ∧ t.status.outLen = s.status.outLen ∧
    t.schedule = s.schedule ∧ t.hostData = s.hostData ∧ t.epoch = s.epoch

theorem SameEnv.trans {s t u : MachineState p} (h : SameEnv s t) (h' : SameEnv t u) : SameEnv s u := by
  simp_all [SameEnv]

theorem Micro.andThen_sameEnv (s : MachineState p) (m : Micro p) (f : MachineState p → Micro p) (h : SameEnv s m.state)
    (hf : ∀ t, SameEnv s t → SameEnv s (f t).state) : SameEnv s (m.andThen f).state := by
  cases m with
  | cont t => exact hf t h
  | ended t => exact h

theorem outWrite_sameEnv (n a v) (s : MachineState p) : SameEnv s (outWrite n a v s).state := by
  unfold outWrite; split <;> simp [SameEnv]

theorem fetch_sameEnv (n : Nat) (s : MachineState p) : SameEnv s (fetch n s).state := by
  by_cases h : s.lat.l.toNat ≤ n * s.lat.s.toNat + 2
  · simp [fetch_oob n s h, SameEnv]
  · simp [fetch_ok n s (by omega), SameEnv]

theorem ystore_sameEnv (n : Nat) (s : MachineState p) : SameEnv s (ystore n s).state :=
  Micro.andThen_sameEnv s _ _ (outWrite_sameEnv _ _ _ _) fun t ht => by
    simpa [SameEnv, incYcur] using ht

theorem chromaStore_sameEnv (n : Nat) (s : MachineState p) : SameEnv s (chromaStore n s).state := by
  unfold chromaStore
  split
  · split
    · rw [cstorePlanar_eq]; split
      · simp [SameEnv]
      · split <;> simp [SameEnv, incCcur]
    · rw [cstoreNv12_eq]; split
      · simp [SameEnv]
      · split <;> simp [SameEnv, incCcur]
  · simp [SameEnv]

theorem pixelStep_sameEnv (s : MachineState p) : SameEnv s (pixelStep s) := by
  refine Micro.andThen_sameEnv s _ _ (fetch_sameEnv _ _) fun t ht => ?_
  refine Micro.andThen_sameEnv s _ _ (ht.trans (ystore_sameEnv _ _)) fun u hu => ?_
  refine Micro.andThen_sameEnv s _ _ (hu.trans (chromaStore_sameEnv _ (cgate u))) fun v hv => ?_
  exact hv.trans (by simp [advance_eq, SameEnv])

theorem engineTurn_sameEnv (s : MachineState p) : SameEnv s (engineTurn s) := by
  unfold engineTurn
  split
  · exact pixelStep_sameEnv s
  · simp [SameEnv]

end Sys2Proof.Machine
end

