-- ==== Sys2Proof/Laws/Subsampler.lean ====
section
/-! SUPPORT. Counting the pixels that pass the gate (spec/42_chroma_subsampler.md R126 to R129). -/

namespace Sys2Proof.Machine

/-- How many of the first `i` columns of an even row pass the gate. -/
def columnsKept (phase : Config.ColumnPhase) (i : Nat) : Nat :=
  match phase with
  | .oddColumns => i / 2
  | .evenColumns => (i + 1) / 2

theorem keptCount_eq (phase : Config.ColumnPhase) (w h : Nat) :
    keptCount phase w h = (h + 1) / 2 * columnsKept phase w := by
  cases phase <;> rfl

theorem columnsKept_succ (phase : Config.ColumnPhase) (i : Nat) :
    columnsKept phase (i + 1) = columnsKept phase i + if i % 2 = phase.parity then 1 else 0 := by
  rcases Nat.mod_two_eq_zero_or_one i with h | h <;> cases phase <;>
    simp [columnsKept, Config.ColumnPhase.parity, h] <;> omega

/-- The gate by row and column (R126). -/
theorem keepsChroma_rowCol (phase : Config.ColumnPhase) (w j i : Nat) (hi : i < w) :
    keepsChroma phase w (j * w + i) = (decide (j % 2 = 0) && decide (i % 2 = phase.parity)) := by
  have hd : (j * w + i) / w = j := by
    rw [Nat.mul_comm, Nat.mul_add_div (by omega), Nat.div_eq_of_lt hi, Nat.add_zero]
  unfold keepsChroma
  rw [hd]
  by_cases hj : j % 2 = 0
  · obtain ⟨q, rfl⟩ : ∃ q, j = 2 * q := ⟨j / 2, by omega⟩
    have : (2 * q * w + i) % 2 = i % 2 := by rw [Nat.mul_assoc]; omega
    simp only [this, hj]; rfl
  · simp [hj]

/-- The gate that the engine computes from `J` and the incremented `INDEX` is the gate of R98 on the pixel number. -/
theorem gate_eq_keepsChroma (phase : Config.ColumnPhase) (w j i n : Nat) (hn : n = j * w + i) (hi : i < w) :
    gate phase j (n + 1) = keepsChroma phase w n := by
  have hd : n / w = j := by
    rw [hn, Nat.mul_comm, Nat.mul_add_div (by omega), Nat.div_eq_of_lt hi, Nat.add_zero]
  unfold gate keepsChroma
  rw [hd]
  congr 1
  cases phase <;> simp only [Config.ColumnPhase.parity] <;> rw [Bool.eq_iff_iff] <;> simp <;> omega

theorem keptBelow_row (phase : Config.ColumnPhase) (w j i : Nat) (hi : i ≤ w) :
    keptBelow phase w (j * w + i) =
      keptBelow phase w (j * w) + if j % 2 = 0 then columnsKept phase i else 0 := by
  induction i with
  | zero => cases phase <;> simp [columnsKept]
  | succ i ih =>
    rw [← Nat.add_assoc]
    show keptBelow phase w (j * w + i) + _ = _
    rw [ih (by omega), keepsChroma_rowCol _ _ _ _ (by omega), columnsKept_succ]
    by_cases hj : j % 2 = 0 <;> simp [hj, Nat.add_assoc]

/-- The kept pixels below row `j`, column `i` (R22, R128). -/
theorem keptBelow_rowCol (phase : Config.ColumnPhase) (w j i : Nat) (hi : i ≤ w) :
    keptBelow phase w (j * w + i) =
      (j + 1) / 2 * columnsKept phase w + if j % 2 = 0 then columnsKept phase i else 0 := by
  rw [keptBelow_row _ _ _ _ hi]
  congr 1
  induction j with
  | zero => simp [keptBelow]
  | succ j ih =>
    rw [Nat.succ_mul, keptBelow_row _ _ _ _ (Nat.le_refl _), ih]
    by_cases hj : j % 2 = 0
    · have : (j + 1 + 1) / 2 = (j + 1) / 2 + 1 := by omega
      rw [if_pos hj, this, Nat.succ_mul]
    · have : (j + 1 + 1) / 2 = (j + 1) / 2 := by omega
      rw [if_neg hj, this, Nat.add_zero]

/-- All kept pixels of an image (R128). -/
theorem keptBelow_all (phase : Config.ColumnPhase) (w h : Nat) :
    keptBelow phase w (w * h) = keptCount phase w h := by
  have := keptBelow_rowCol phase w h 0 (Nat.zero_le _)
  rw [Nat.add_zero, Nat.mul_comm] at this
  rw [this, keptCount_eq]
  cases phase <;> simp [columnsKept]

theorem keptBelow_mono (phase : Config.ColumnPhase) (w : Nat) {m n : Nat} (h : m ≤ n) :
    keptBelow phase w m ≤ keptBelow phase w n := by
  induction h with
  | refl => exact Nat.le_refl _
  | step _ ih => exact Nat.le_trans ih (Nat.le_add_right _ _)

theorem keptBelow_le (phase : Config.ColumnPhase) (w n : Nat) : keptBelow phase w n ≤ n := by
  induction n with
  | zero => exact Nat.le_refl _
  | succ n ih => unfold keptBelow; split <;> omega

/-- A kept pixel is one more than those below it. -/
theorem keptBelow_succ_of_keeps (phase : Config.ColumnPhase) (w n : Nat) (h : keepsChroma phase w n = true) :
    keptBelow phase w (n + 1) = keptBelow phase w n + 1 := by simp [keptBelow, h]

theorem keptBelow_succ_of_not (phase : Config.ColumnPhase) (w n : Nat) (h : keepsChroma phase w n = false) :
    keptBelow phase w (n + 1) = keptBelow phase w n := by simp [keptBelow, h]

/-- A kept pixel leaves the count below it short of `K`. -/
theorem keptBelow_lt_keptCount (phase : Config.ColumnPhase) (w h n : Nat) (hn : n < w * h)
    (hk : keepsChroma phase w n = true) : keptBelow phase w n < keptCount phase w h := by
  have h1 := keptBelow_succ_of_keeps phase w n hk
  have h2 := keptBelow_mono phase w (m := n + 1) (n := w * h) hn
  rw [keptBelow_all] at h2
  omega

/-- The pixel number of the `k`-th kept sample (R129). -/
def keptPixel (phase : Config.ColumnPhase) (w k : Nat) : Nat :=
  2 * (k / columnsKept phase w) * w + (2 * (k % columnsKept phase w) + phase.parity)

theorem keptPixel_spec (phase : Config.ColumnPhase) (w h k : Nat) (hk : k < keptCount phase w h) :
    keptPixel phase w k < w * h ∧ keepsChroma phase w (keptPixel phase w k) = true ∧
      keptBelow phase w (keptPixel phase w k) = k := by
  rw [keptCount_eq] at hk
  have hc : 0 < columnsKept phase w := by
    rcases Nat.eq_zero_or_pos (columnsKept phase w) with h0 | h0
    · simp [h0] at hk
    · exact h0
  have hm := Nat.mod_lt k hc
  have hq : k / columnsKept phase w < (h + 1) / 2 := Nat.div_lt_of_lt_mul (by rwa [Nat.mul_comm])
  have hcol : 2 * (k % columnsKept phase w) + phase.parity < w := by
    revert hm; cases phase <;> simp only [columnsKept, Config.ColumnPhase.parity] <;> intro hm <;> omega
  refine ⟨?_, ?_, ?_⟩
  · have h1 : (2 * (k / columnsKept phase w) + 1) * w ≤ h * w := Nat.mul_le_mul_right _ (by omega)
    have h2 : (2 * (k / columnsKept phase w) + 1) * w = 2 * (k / columnsKept phase w) * w + w := by ring
    unfold keptPixel
    rw [Nat.mul_comm w h]; omega
  · unfold keptPixel
    rw [keepsChroma_rowCol _ _ _ _ hcol]
    have : (2 * (k % columnsKept phase w) + phase.parity) % 2 = phase.parity := by
      cases phase <;> simp only [Config.ColumnPhase.parity] <;> omega
    simp [this]
  · unfold keptPixel
    rw [keptBelow_rowCol _ _ _ _ (by omega), if_pos (by omega)]
    have h1 : (2 * (k / columnsKept phase w) + 1) / 2 = k / columnsKept phase w := by omega
    have h2 : columnsKept phase (2 * (k % columnsKept phase w) + phase.parity) = k % columnsKept phase w := by
      generalize k % columnsKept phase w = m
      cases phase <;> simp only [columnsKept, Config.ColumnPhase.parity] <;> omega
    rw [h1, h2, Nat.div_add_mod']

end Sys2Proof.Machine
end

