-- ==== Sys2Proof/Laws/Running.lean ====
section
/-! SUPPORT. A pixel step of a running operation, by cases, in the terms of R22: one inversion lemma that the
statements about runs cite. -/

namespace Sys2Proof.Machine

theorem toNat_add_one {w : Nat} (x : BitVec w) (h : x.toNat + 1 < 2 ^ w) : (x + 1).toNat = x.toNat + 1 := by
  have hw : 0 < w := by
    rcases Nat.eq_zero_or_pos w with h0 | h0
    · subst h0; omega
    · exact h0
  rw [BitVec.toNat_add, show (1 : BitVec w).toNat = 1 from BitVec.toNat_one hw, Nat.mod_eq_of_lt h]

theorem toNat_ofNat_of_lt {w : Nat} (n : Nat) (h : n < 2 ^ w) : (BitVec.ofNat w n).toNat = n := by
  rw [BitVec.toNat_ofNat, Nat.mod_eq_of_lt h]

variable {p : Config.Params} {s : MachineState p}

theorem Sized.n_le (h : Sized s.lat) : s.lat.n.toNat ≤ p.maxPixels := h.2.1

theorem Sized.voff_le (h : Sized s.lat) : s.lat.voff.toNat ≤ s.lat.n.toNat / 4 := by
  obtain ⟨_, _, hc, hv, _⟩ := h
  rw [hv, hc]; cases p.voffMode <;> simp only [vOffset] <;> omega

theorem Running.keeps_eq (h : Running s) :
    gate p.cphase s.seq.j.toNat (s.seq.index + 1).toNat =
      keepsChroma p.cphase s.lat.w.toNat s.seq.index.toNat := by
  obtain ⟨hs, _, hi, hw, _, hn⟩ := h
  rw [toNat_add_one _ (by have := s.lat.n.isLt; omega)]
  exact gate_eq_keepsChroma _ _ _ _ _ hi hw

theorem Running.ycur_eq (h : Running s) : s.seq.ycur.toNat = s.seq.index.toNat := by rw [h.2.1.1]

/-- The luma store is in range (R146). -/
theorem Running.ycur_lt (h : Running s) : s.seq.ycur.toNat < s.lat.olen.toNat := by
  have h1 := h.ycur_eq
  obtain ⟨⟨_, _, _, _, ho⟩, _, _, _, _, hn⟩ := h
  omega

/-- The chroma cursor and the address after it are addresses (R53). -/
theorem Running.ccur_lt (ha : Adequate p) (h : Running s) : s.seq.ccur.toNat + 1 < 2 ^ p.addrBits := by
  obtain ⟨⟨_, hm, _, _, ho⟩, ⟨_, _, hf, _⟩, _, _, _, hn⟩ := h
  have := ha.outputs
  unfold StoresFit at hf
  omega

/-- All that a pixel step of a running operation can do: a fetch out of bounds, a dropped pixel, a kept pixel in either
layout, or a chroma store past the end, which is always at `OLEN` (R95, R158, R159). -/
inductive PixelOutcome (s : MachineState p) : MachineState p → Prop
  | inputFault (h : s.lat.l.toNat ≤ s.seq.index.toNat * s.lat.s.toNat + 2) :
      PixelOutcome s
        (raise .inOob (max s.lat.l.toNat (s.seq.index.toNat * s.lat.s.toNat)) s.seq.index.toNat s)
  | dropped (h : s.seq.index.toNat * s.lat.s.toNat + 2 < s.lat.l.toNat)
      (hk : keepsChroma p.cphase s.lat.w.toNat s.seq.index.toNat = false) :
      PixelOutcome s
        (landed s (finalDp s) (s.outMem.write s.seq.index.toNat (currentYuv s).1) s.seq.ccur)
  | keptPlanar (h : s.seq.index.toNat * s.lat.s.toNat + 2 < s.lat.l.toNat)
      (hk : keepsChroma p.cphase s.lat.w.toNat s.seq.index.toNat = true) (hm : s.lat.mode = .planar)
      (hc : s.seq.ccur.toNat + s.lat.voff.toNat < s.lat.olen.toNat) :
      PixelOutcome s
        (landed s (finalDp s)
          (((s.outMem.write s.seq.index.toNat (currentYuv s).1).write s.seq.ccur.toNat (currentYuv s).2.1).write
            (s.seq.ccur.toNat + s.lat.voff.toNat) (currentYuv s).2.2) (s.seq.ccur + 1))
  | keptNv12 (h : s.seq.index.toNat * s.lat.s.toNat + 2 < s.lat.l.toNat)
      (hk : keepsChroma p.cphase s.lat.w.toNat s.seq.index.toNat = true) (hm : s.lat.mode = .nv12)
      (hc : s.seq.ccur.toNat + 1 < s.lat.olen.toNat) :
      PixelOutcome s
        (landed s (finalDp s)
          (((s.outMem.write s.seq.index.toNat (currentYuv s).1).write s.seq.ccur.toNat (currentYuv s).2.1).write
            (s.seq.ccur.toNat + 1) (currentYuv s).2.2) (s.seq.ccur + 1 + 1))
  | outputFault (u : MachineState p) (h : s.seq.index.toNat * s.lat.s.toNat + 2 < s.lat.l.toNat)
      (hk : keepsChroma p.cphase s.lat.w.toNat s.seq.index.toNat = true)
      (hc : s.lat.olen.toNat ≤ match s.lat.mode with
        | .planar => s.seq.ccur.toNat + s.lat.voff.toNat
        | .nv12 => s.seq.ccur.toNat + 1)
      (hu : SameEnv s u) (hst : u.status = s.status)
      (hout : s.lat.olen.toNat ≤ s.seq.ccur.toNat ∧
          u.outMem = s.outMem.write s.seq.index.toNat (currentYuv s).1 ∨
        s.seq.ccur.toNat < s.lat.olen.toNat ∧ u.outMem =
          (s.outMem.write s.seq.index.toNat (currentYuv s).1).write s.seq.ccur.toNat (currentYuv s).2.1) :
      PixelOutcome s (raise .outOob s.lat.olen.toNat s.seq.index.toNat u)

theorem Running.pixelOutcome (ha : Adequate p) (h : Running s) : PixelOutcome s (pixelStep s) := by
  have hb := finalDp_bytes ha s
  have by1 : byteOf (finalDp s).yq = (currentYuv s).1 := congrArg Prod.fst hb
  have by2 : byteOf (finalDp s).uq = (currentYuv s).2.1 := congrArg (·.2.1) hb
  have by3 : byteOf (finalDp s).vq = (currentYuv s).2.2 := congrArg (·.2.2) hb
  have hy := h.ycur_lt
  have hye := h.ycur_eq
  have hg := h.keeps_eq
  have hcl := h.ccur_lt ha
  have hfit : StoresFit s := h.2.1.2.2.1
  unfold StoresFit at hfit
  by_cases hf : s.lat.l.toNat ≤ s.seq.index.toNat * s.lat.s.toNat + 2
  · rw [pixelStep_inOob s hf]; exact .inputFault hf
  · replace hf : s.seq.index.toNat * s.lat.s.toNat + 2 < s.lat.l.toNat := by omega
    cases hk : keepsChroma p.cphase s.lat.w.toNat s.seq.index.toNat with
    | false =>
      rw [pixelStep_dropped s hf hy (hg.trans hk), hye, by1]
      exact .dropped hf hk
    | true =>
      cases hm : s.lat.mode with
      | planar =>
        simp only [hm] at hfit
        by_cases hc : s.seq.ccur.toNat + s.lat.voff.toNat < s.lat.olen.toNat
        · rw [pixelStep_planar s hf hy (hg.trans hk) hm hc, hye, by1, by2, by3]
          exact .keptPlanar hf hk hm hc
        · rw [pixelStep_planar_oob s hf hy (hg.trans hk) hm (by omega), hye, by1, by2]
          have he : s.seq.ccur.toNat + s.lat.voff.toNat = s.lat.olen.toNat := by omega
          split
          · have he' : s.seq.ccur.toNat = s.lat.olen.toNat := by omega
            rw [he']
            refine .outputFault _ hf hk (by simp only [hm]; omega) (by simp [SameEnv, lumaStored]) rfl
              (.inl ⟨by omega, by simp [lumaStored, hye, by1]⟩)
          · rw [he]
            refine .outputFault _ hf hk (by simp only [hm]; omega) (by simp [SameEnv, lumaStored]) rfl
              (.inr ⟨by omega, rfl⟩)
      | nv12 =>
        simp only [hm] at hfit
        have h1 := toNat_add_one s.seq.ccur (by omega)
        by_cases hc : s.seq.ccur.toNat + 1 < s.lat.olen.toNat
        · rw [pixelStep_nv12 s hf hy (hg.trans hk) hm (by omega) (by omega), hye, h1, by1, by2, by3]
          exact .keptNv12 hf hk hm hc
        · rw [pixelStep_nv12_oob s hf hy (hg.trans hk) hm (by omega), hye, by1, by2]
          split
          · have he' : s.seq.ccur.toNat = s.lat.olen.toNat := by omega
            rw [he']
            refine .outputFault _ hf hk (by simp only [hm]; omega) (by simp [SameEnv, lumaStored]) rfl
              (.inl ⟨by omega, by simp [lumaStored, hye, by1]⟩)
          · have he : (s.seq.ccur + 1).toNat = s.lat.olen.toNat := by omega
            rw [he]
            refine .outputFault _ hf hk (by simp only [hm]; omega) (by simp [SameEnv, lumaStored, incCcur]) rfl
              (.inr ⟨by omega, rfl⟩)

end Sys2Proof.Machine
end

