-- ==== Sys2Proof/Laws/Operation.lean ====
section
/-! SUPPORT. The life of an operation: what `Start` leaves, and that a pixel step keeps a running operation running
until it ends (spec/40_operations.md R91, R95 to R97). -/

namespace Sys2Proof.Machine

variable {p : Config.Params} {s : MachineState p}

/-! ## The start -/

theorem pixelCount_toNat (ha : Adequate p) (w h : BitVec p.dimBits) :
    (BitVec.ofNat p.addrBits (pixelCount w.toNat h.toNat)).toNat = w.toNat * h.toNat := by
  apply toNat_ofNat_of_lt
  calc w.toNat * h.toNat < 2 ^ p.dimBits * 2 ^ p.dimBits := Nat.mul_lt_mul'' w.isLt h.isLt
    _ = 2 ^ (2 * p.dimBits) := by rw [← Nat.pow_add, Nat.two_mul]
    _ ≤ 2 ^ p.addrBits := Nat.pow_le_pow_right (by omega) ha.pixels

theorem latch_n (ha : Adequate p) (layout : Layout) (s : MachineState p) :
    (latch layout s).lat.n.toNat = s.cfg.width.toNat * s.cfg.height.toNat := pixelCount_toNat ha _ _

/-- A geometry beyond `MAX_PIXELS`: all that `Start` does (R91, R160). -/
theorem start_geom (ha : Adequate p) (layout : Layout) (s : MachineState p)
    (h : p.maxPixels < s.cfg.width.toNat * s.cfg.height.toNat) :
    start layout s = { latch layout s with
      status := { state := .fault, cause := .geom, faddr := 0, fpix := 0, outLen := 0 } } := by
  unfold start
  rw [if_pos (by rwa [latch_n ha])]
  rfl

/-- An accepted geometry: all that `Start` does (R91). -/
theorem start_accepted (ha : Adequate p) (layout : Layout) (s : MachineState p)
    (h : s.cfg.width.toNat * s.cfg.height.toNat ≤ p.maxPixels) :
    start layout s = startAccepted (latch layout s) := by
  unfold start
  rw [if_neg (by rw [latch_n ha]; omega)]

/-- What an accepted `Start` leaves, field by field (R91). -/
structure Started (layout : Layout) (s t : MachineState p) : Prop where
  cfg : t.cfg = s.cfg
  dp : t.dp = s.dp
  inMem : t.inMem = s.inMem
  schedule : t.schedule = s.schedule
  hostData : t.hostData = s.hostData
  epoch : t.epoch = s.epoch
  w : t.lat.w = s.cfg.width
  h : t.lat.h = s.cfg.height
  stride : t.lat.s = s.cfg.bpp
  l : t.lat.l = s.cfg.inLen
  mode : t.lat.mode = layout
  n : t.lat.n.toNat = s.cfg.width.toNat * s.cfg.height.toNat
  cps : t.lat.cps.toNat = s.cfg.width.toNat * s.cfg.height.toNat / 4
  voff : t.lat.voff.toNat = vOffset p.voffMode (s.cfg.width.toNat * s.cfg.height.toNat / 4)
  olen : t.lat.olen.toNat = 3 * (s.cfg.width.toNat * s.cfg.height.toNat) / 2
  seq : t.seq = { j := 0, i := 0, index := 0, ycur := 0, ccur := t.lat.n }
  status : t.status = { state := if s.cfg.width.toNat * s.cfg.height.toNat = 0 then .done else .busy,
                        cause := .none, faddr := 0, fpix := 0, outLen := t.lat.olen }
  outMem : t.outMem = s.outMem.zeroFill (3 * (s.cfg.width.toNat * s.cfg.height.toNat) / 2)

theorem vOffset_le (mode : Config.VoffMode) (cps : Nat) : vOffset mode cps ≤ cps := by
  cases mode <;> simp only [vOffset] <;> omega

theorem start_started (ha : Adequate p) (layout : Layout) (s : MachineState p)
    (h : s.cfg.width.toNat * s.cfg.height.toNat ≤ p.maxPixels) : Started layout s (start layout s) := by
  have hm := ha.outputs
  have hv := vOffset_le p.voffMode (s.cfg.width.toNat * s.cfg.height.toNat / 4)
  have ho : (startAccepted (latch layout s)).lat.olen.toNat =
      3 * (s.cfg.width.toNat * s.cfg.height.toNat) / 2 := by
    show (BitVec.ofNat p.addrBits (outputLength (latch layout s).lat.n.toNat)).toNat = _
    rw [latch_n ha, BitVec.toNat_ofNat, outputLength, Nat.mod_eq_of_lt (by omega)]
  rw [start_accepted ha layout s h]
  refine ⟨rfl, rfl, rfl, rfl, rfl, rfl, rfl, rfl, rfl, rfl, rfl, latch_n ha layout s, ?_, ?_, ho, rfl, ?_, ?_⟩
  · show (BitVec.ofNat p.addrBits (chromaPlaneSize (latch layout s).lat.n.toNat)).toNat = _
    rw [latch_n ha, BitVec.toNat_ofNat, chromaPlaneSize, Nat.mod_eq_of_lt (by omega)]
  · show (BitVec.ofNat p.addrBits (vOffset p.voffMode (chromaPlaneSize (latch layout s).lat.n.toNat))).toNat = _
    rw [latch_n ha, BitVec.toNat_ofNat, chromaPlaneSize, Nat.mod_eq_of_lt (by omega)]
  · have hz : (latch layout s).lat.n = 0 ↔ s.cfg.width.toNat * s.cfg.height.toNat = 0 := by
      rw [← latch_n ha layout s]
      exact ⟨fun h => by rw [h]; rfl, fun h => BitVec.eq_of_toNat_eq h⟩
    show ({ state := if (latch layout s).lat.n = 0 then OpState.done else .busy, cause := .none, faddr := 0,
            fpix := 0, outLen := (startAccepted (latch layout s)).lat.olen } : Status p) = _
    simp only [hz]
  · rw [← ho]; rfl

/-- The sizes that `Start` leaves (R7, R24). -/
theorem Started.sized {layout : Layout} {t : MachineState p} (h : Started layout s t)
    (hn : s.cfg.width.toNat * s.cfg.height.toNat ≤ p.maxPixels) : Sized t.lat := by
  refine ⟨by rw [h.n, h.w, h.h], by rw [h.n]; exact hn, by rw [h.cps, h.n], by rw [h.voff, h.cps], ?_⟩
  rw [h.olen, h.n]

/-- The cursors that `Start` leaves (R22, R37, R54). -/
theorem Started.placed {layout : Layout} {t : MachineState p} (h : Started layout s t)
    (hn : s.cfg.width.toNat * s.cfg.height.toNat ≤ p.maxPixels) : Placed t := by
  have hz := h.sized hn
  have hv := Sized.voff_le hz
  obtain ⟨_, _, _, _, ho⟩ := hz
  refine ⟨by rw [h.seq], ?_, ?_, by rw [h.status], ?_⟩
  · rw [h.seq]; simp [keptBelow]
  · unfold StoresFit; rw [h.seq]; split <;> simp only <;> omega
  · rw [h.outMem, Memory.zeroed_zeroFill, h.olen]; omega

/-- An accepted `Start` on at least one pixel leaves a running operation (R22, R91). -/
theorem Started.running {layout : Layout} {t : MachineState p} (h : Started layout s t)
    (hn : s.cfg.width.toNat * s.cfg.height.toNat ≤ p.maxPixels)
    (h0 : 0 < s.cfg.width.toNat * s.cfg.height.toNat) : Running t := by
  have hw := Nat.pos_of_mul_pos_right h0
  have hh := Nat.pos_of_mul_pos_left h0
  refine ⟨h.sized hn, h.placed hn, ?_⟩
  rw [h.seq, h.n, h.w, h.h]
  have z : (0 : BitVec p.dimBits).toNat = 0 := by simp
  have z' : (0 : BitVec p.addrBits).toNat = 0 := by simp
  simp only [z, z']
  omega

/-- An accepted `Start` on no pixel leaves a finished operation (R92). -/
theorem Started.finished {layout : Layout} {t : MachineState p} (h : Started layout s t)
    (hn : s.cfg.width.toNat * s.cfg.height.toNat ≤ p.maxPixels)
    (h0 : s.cfg.width.toNat * s.cfg.height.toNat = 0) : Finished t := by
  have hz : t.lat.n = 0 := BitVec.eq_of_toNat_eq (by rw [h.n, h0]; rfl)
  refine ⟨h.sized hn, h.placed hn, by rw [h.seq, hz], fun hp => ?_⟩
  rw [h.n] at hp; omega

/-! ## The pixel step -/

/-- The position after a pixel step, as numbers (R22, R96). -/
theorem nextSeq_position (h : Running s) (c : BitVec p.addrBits) :
    (nextSeq s c).index.toNat = s.seq.index.toNat + 1 ∧
    (nextSeq s c).ycur.toNat = s.seq.index.toNat + 1 ∧
    (nextSeq s c).index.toNat = (nextSeq s c).j.toNat * s.lat.w.toNat + (nextSeq s c).i.toNat ∧
    (nextSeq s c).i.toNat < s.lat.w.toNat := by
  have hy := h.ycur_eq
  obtain ⟨hs, _, hp, hi, hj, hn⟩ := h
  have hn' := s.lat.n.isLt
  have hw := s.lat.w.isLt
  have hh := s.lat.h.isLt
  have e1 := toNat_add_one s.seq.index (by omega)
  have e2 := toNat_add_one s.seq.ycur (by omega)
  have e3 := toNat_add_one s.seq.i (by omega)
  have e4 := toNat_add_one s.seq.j (by omega)
  refine ⟨e1, by rw [← hy]; exact e2, ?_⟩
  simp only [nextSeq]
  split
  · rw [e1, e3]; omega
  · rw [e1, e4, Nat.succ_mul, show (0 : BitVec p.dimBits).toNat = 0 by simp]; omega

/-- While pixels are left the row stays in range, and after the last pixel it is `H` (R22, R149). -/
theorem nextSeq_row (h : Running s) (c : BitVec p.addrBits) :
    (s.seq.index + 1 ≠ s.lat.n → (nextSeq s c).j.toNat < s.lat.h.toNat ∧ s.seq.index.toNat + 1 < s.lat.n.toNat) ∧
    (s.seq.index + 1 = s.lat.n → (nextSeq s c).j = s.lat.h ∧ (nextSeq s c).i = 0) := by
  obtain ⟨h1, _, h2, h3⟩ := nextSeq_position h c
  obtain ⟨⟨hwh, _⟩, _, hp, hi, hj, hn⟩ := h
  rw [h1] at h2
  rw [Nat.mul_comm] at hwh
  constructor
  · intro hne
    have hne' : s.seq.index.toNat + 1 ≠ s.lat.n.toNat := fun e => hne (BitVec.eq_of_toNat_eq (by rw [← e]; exact h1))
    have hlt : s.seq.index.toNat + 1 < s.lat.n.toNat := by omega
    refine ⟨?_, hlt⟩
    by_contra hc
    have := Nat.mul_le_mul_right s.lat.w.toNat (Nat.le_of_not_lt hc)
    omega
  · intro he
    have he' : s.seq.index.toNat + 1 = s.lat.n.toNat := by rw [← he]; exact h1.symm
    have hj' : (nextSeq s c).j.toNat = s.lat.h.toNat := by
      rcases Nat.lt_trichotomy (nextSeq s c).j.toNat s.lat.h.toNat with hlt | heq | hgt
      · have := Nat.mul_le_mul_right s.lat.w.toNat (Nat.succ_le_of_lt hlt)
        rw [Nat.succ_mul] at this; omega
      · exact heq
      · have := Nat.mul_le_mul_right s.lat.w.toNat (Nat.succ_le_of_lt hgt)
        rw [Nat.succ_mul] at this; omega
    refine ⟨BitVec.eq_of_toNat_eq hj', BitVec.eq_of_toNat_eq ?_⟩
    rw [hj'] at h2
    show _ = 0
    omega

/-- How an operation stands after a turn of the engine: it runs on, it is finished, or it took a bounds fault. -/
inductive TurnOutcome (t : MachineState p) : Prop
  | running (hb : t.status.state = .busy) (h : Running t)
  | finished (hd : t.status.state = .done) (h : Finished t)
  | fault (hf : t.status.state = .fault) (hc : t.status.cause = .inOob ∨ t.status.cause = .outOob)

/-- A pixel step that ends without a fault leaves the operation running, or finished after its last pixel. -/
theorem landed_outcome (h : Running s) (hb : s.status.state = .busy)
    (dp : Datapath p) (out : Memory) (c : BitVec p.addrBits)
    (hc : c.toNat = s.seq.ccur.toNat + chromaAdvance s.lat.mode *
      (if keepsChroma p.cphase s.lat.w.toNat s.seq.index.toNat then 1 else 0))
    (hfit : StoresFit (landed s dp out c)) (hz : s.lat.olen.toNat ≤ out.zeroed) :
    TurnOutcome (landed s dp out c) ∧
      ((landed s dp out c).status.state = .done ↔ s.seq.index.toNat + 1 = s.lat.n.toNat) ∧
      (landed s dp out c).status.state ≠ .fault := by
  obtain ⟨h1, h2, h3, h4⟩ := nextSeq_position h c
  have hrow := nextSeq_row h c
  obtain ⟨hs, ⟨_, hcc, _, hol, _⟩, _, _, _, hn⟩ := h
  have hplaced : Placed (landed s dp out c) := by
    refine ⟨BitVec.eq_of_toNat_eq (by simp only [landed]; rw [h1, h2]), ?_, hfit, hol, hz⟩
    show c.toNat = s.lat.n.toNat + chromaAdvance s.lat.mode * keptBelow p.cphase s.lat.w.toNat (nextSeq s c).index.toNat
    rw [h1, hc, hcc, keptBelow, Nat.mul_add, Nat.add_assoc]
  by_cases he : s.seq.index + 1 = s.lat.n
  · have hst : (landed s dp out c).status.state = .done := by simp only [landed, if_pos he]
    refine ⟨.finished hst ⟨hs, hplaced, he, fun _ => hrow.2 he⟩, ⟨fun _ => ?_, fun _ => hst⟩, by simp [hst]⟩
    rw [← he]; exact h1.symm
  · have hst : (landed s dp out c).status.state = .busy := by simp only [landed, if_neg he, hb]
    obtain ⟨hj, hlt⟩ := hrow.1 he
    refine ⟨.running hst ⟨hs, hplaced, h3, h4, hj, by simp only [landed]; omega⟩,
      ⟨fun hd => by simp [hst] at hd, fun hd => by omega⟩, by simp [hst]⟩

/-- A turn of the engine on a running operation: running, finished, or in a bounds fault. -/
theorem Running.turnOutcome (ha : Adequate p) (h : Running s) (hb : s.status.state = .busy) :
    TurnOutcome (pixelStep s) := by
  have hz := h.2.1.2.2.2.2
  have hcl := h.ccur_lt ha
  have hfit : StoresFit s := h.2.1.2.2.1
  have ho := h.pixelOutcome ha
  generalize pixelStep s = t at ho ⊢
  cases ho with
  | inputFault _ => exact .fault rfl (.inl rfl)
  | dropped _ hk =>
    exact (landed_outcome h hb _ _ _ (by simp [hk]) hfit (by simpa using hz)).1
  | keptPlanar _ hk hm hc =>
    have e := toNat_add_one s.seq.ccur (by omega)
    refine (landed_outcome h hb _ _ _ (by simp only [hk, hm, chromaAdvance, e, if_true]) ?_ (by simpa using hz)).1
    unfold StoresFit; simp only [landed, hm, nextSeq, e]; omega
  | keptNv12 _ hk hm hc =>
    have e := toNat_add_one s.seq.ccur (by omega)
    have e' := toNat_add_one (s.seq.ccur + 1) (by omega)
    refine (landed_outcome h hb _ _ _ (by simp only [hk, hm, chromaAdvance, e, e', if_true]) ?_ (by simpa using hz)).1
    unfold StoresFit; simp only [landed, hm, nextSeq, e, e']; omega
  | outputFault u _ _ _ _ _ _ => exact .fault rfl (.inr rfl)

/-- A pixel step that does not fault counts one pixel (R19). -/
theorem Running.index_pixelStep (ha : Adequate p) (h : Running s) (hf : (pixelStep s).status.state ≠ .fault) :
    (pixelStep s).seq.index.toNat = s.seq.index.toNat + 1 := by
  have hl : ∀ dp out c, (landed s dp out c).seq.index.toNat = s.seq.index.toNat + 1 :=
    fun _ _ c => (nextSeq_position h c).1
  have ho := h.pixelOutcome ha
  generalize pixelStep s = t at ho hf ⊢
  cases ho with
  | inputFault _ => exact absurd rfl hf
  | dropped _ _ => exact hl _ _ _
  | keptPlanar _ _ _ _ => exact hl _ _ _
  | keptNv12 _ _ _ _ => exact hl _ _ _
  | outputFault u _ _ _ _ _ _ => exact absurd rfl hf

end Sys2Proof.Machine
end

