-- ==== Sys2Proof/Laws/Step.lean ====
section
/-! SUPPORT. All that one step of the machine can do, said once (spec/30_encoding.md R83, spec/70_reset_and_hazards.md
R179, R194). -/

namespace Sys2Proof.Machine

variable {p : Config.Params}

/-- A whole-word write to `CMD` runs the word (R32). -/
theorem nextEvent_writeCmd (c : Word32) (rest : List Event) (s : MachineState p)
    (h : s.schedule = .wr 4 32 c :: rest) : nextEvent s = writeCmd c (s.withSchedule rest) := by
  simp [nextEvent, h, runEvent, hostWrite, Reg.ofNum, Reg.bits, writeReg]

theorem Reg.ofNum_cmd {num : Nat} (h : Reg.ofNum num = some .cmd) : num = 4 := by
  unfold Reg.ofNum at h; split at h <;> simp_all

/-- The two tables of register widths agree (R27). -/
theorem registerWidth_eq (num : Nat) : registerWidth p num = (Reg.ofNum num).map (Reg.bits p) := by
  unfold registerWidth; split
  all_goals first | rfl | (unfold Reg.ofNum; split <;> simp_all)

/-- A word that decodes to nothing is illegal, one that decodes is one of the commands (R68, R69). -/
theorem writeCmd_cases (c : Word32) (s : MachineState p) :
    (∃ e, decode c = .error e ∧ writeCmd c s = .next (illegalCommand s)) ∨
    (∃ layout, decode c = .ok (.nop layout) ∧ writeCmd c s = .next s) ∨
    (∃ layout, decode c = .ok (if layout = Layout.planar then .convertPlanar else .convertNv12) ∧
      writeCmd c s = .next (convert layout s)) := by
  unfold writeCmd
  cases hd : decode c with
  | error e => exact .inl ⟨e, rfl, rfl⟩
  | ok i =>
    cases i with
    | convertPlanar => exact .inr (.inr ⟨.planar, rfl, rfl⟩)
    | convertNv12 => exact .inr (.inr ⟨.nv12, rfl, rfl⟩)
    | nop layout => exact .inr (.inl ⟨layout, rfl, rfl⟩)

/-- All next states of a step of the machine, with the event that leads there, which is taken off the schedule. -/
inductive StepOutcome (s : MachineState p) : MachineState p → Prop
  /-- the engine's turn, by an `engine` event or because nothing else is to come -/
  | engine (rest) (h : s.schedule = [] ∧ rest = [] ∨ s.schedule = .engine :: rest) :
      StepOutcome s (engineTurn (s.withSchedule rest))
  | reset (rest) (h : s.schedule = .reset :: rest) : StepOutcome s (resetEvent (s.withSchedule rest))
  /-- a write of a configuration register -/
  | configured (rest cfg) (h : ∃ num width v, s.schedule = .wr num width v :: rest) :
      StepOutcome s ((s.withSchedule rest).withCfg cfg)
  /-- a write that changes nothing: to a read-only register, of `NOP`, or to `CMD` while `BUSY` -/
  | ignored (rest) (h : ∃ num width v, s.schedule = .wr num width v :: rest) :
      StepOutcome s (s.withSchedule rest)
  /-- a conversion command -/
  | started (c rest layout) (h : s.schedule = .wr 4 32 c :: rest) (hb : s.status.state ≠ .busy)
      (hd : decode c = .ok (if layout = Layout.planar then .convertPlanar else .convertNv12)) :
      StepOutcome s (start layout (s.withSchedule rest))
  /-- an illegal word -/
  | illegal (c rest e) (h : s.schedule = .wr 4 32 c :: rest) (hb : s.status.state ≠ .busy)
      (hd : decode c = .error e) : StepOutcome s (raise .illegalCmd 0 0 (s.withSchedule rest))
  /-- a host read -/
  | answered (rest data) (h : ∃ e, s.schedule = e :: rest) :
      StepOutcome s ((s.withSchedule rest).withHostData data)
  /-- a load of `IN` -/
  | loaded (addr values rest) (h : s.schedule = .ldin addr values :: rest) (hb : s.status.state ≠ .busy) :
      StepOutcome s ((s.withSchedule rest).withIn (s.inMem.writeBytes addr values))
  /-- a load of no bytes -/
  | emptyLoad (addr rest) (h : s.schedule = .ldin addr [] :: rest) : StepOutcome s (s.withSchedule rest)
  /-- a poll of `WAIT` that found `BUSY` -/
  | waiting (rest data) (h : s.schedule = .wait :: rest) (hb : s.status.state = .busy) :
      StepOutcome s (engineTurn (s.withHostData data))

theorem nextEvent_outcome {s t : MachineState p} (h : nextEvent s = .next t) : StepOutcome s t := by
  unfold nextEvent at h
  cases hs : s.schedule with
  | nil =>
    rw [hs] at h; cases h
    have := StepOutcome.engine (s := s) [] (.inl ⟨hs, rfl⟩)
    rwa [← hs, MachineState.withSchedule_self] at this
  | cons e rest =>
    rw [hs] at h
    cases e with
    | engine => cases h; exact .engine rest (.inr hs)
    | reset => cases h; exact .reset rest hs
    | wr num width v =>
      simp only [runEvent, hostWrite] at h
      split at h
      · cases h
      · rename_i r hr
        split at h
        · rename_i hw
          subst hw
          have hwr : ∃ num width v, s.schedule = .wr num width v :: rest := ⟨_, _, _, hs⟩
          cases r
          case cmd =>
            obtain rfl := Reg.ofNum_cmd hr
            rw [BitVec.setWidth_eq] at h
            replace h : writeCmd v (s.withSchedule rest) = .next t := h
            rcases writeCmd_cases v (s.withSchedule rest) with ⟨e, hd, he⟩ | ⟨l, hd, he⟩ | ⟨l, hd, he⟩ <;>
              rw [he] at h <;> cases h
            · unfold illegalCommand; split
              · exact .ignored rest hwr
              · exact .illegal v rest e hs ‹_› hd
            · exact .ignored rest hwr
            · unfold convert; split
              · exact .ignored rest hwr
              · exact .started v rest l hs ‹_› hd
          all_goals
            cases h
            first
            | exact .ignored rest hwr
            | exact .configured rest _ hwr
        · cases h
    | rd num width =>
      simp only [runEvent, hostRead] at h
      split at h
      · cases h
      · split at h
        · cases h; exact .answered rest _ ⟨_, hs⟩
        · cases h
    | ldin addr values =>
      simp only [runEvent, hostLoadIn] at h
      split at h
      · rename_i hv
        cases h; subst hv
        exact .emptyLoad addr rest hs
      · split at h
        · cases h
        · split at h
          · cases h
          · cases h; exact .loaded addr values rest hs ‹_›
    | rdin addr count =>
      simp only [runEvent, hostReadIn] at h
      split at h
      · cases h
      · cases h; exact .answered rest _ ⟨_, hs⟩
    | rdout addr count =>
      simp only [runEvent, hostReadOut] at h
      split at h
      · cases h
      · split at h
        · cases h
        · split at h
          · cases h; exact .answered rest _ ⟨_, hs⟩
          · cases h
    | wrout addr values => cases h
    | wait =>
      simp only [runEvent, hostWait] at h
      split at h
      · rename_i hb
        cases h
        have := StepOutcome.waiting (s := s) rest
          (readReg ((s.withSchedule rest)) .status) hs hb
        simpa [MachineState.withSchedule, MachineState.withHostData, ← hs] using this
      · cases h; exact .answered rest _ ⟨_, hs⟩

/-- All next states of a step of this hardware. -/
theorem step_outcome {s t : State} (h : step s = .next t) : StepOutcome s.toMachineState t.toMachineState :=
  nextEvent_outcome ((onHardware_eq_next _ _).1 h)

/-- A whole-word write to `CMD` runs the word (R32). -/
theorem step_writeCmd (c : Word32) (rest : List Event) (s : State) (h : s.schedule = .wr 4 32 c :: rest) :
    step s = onHardware (writeCmd c (s.withSchedule rest)) := by
  rw [step, nextEvent_writeCmd c rest _ h]

end Sys2Proof.Machine
end

