-- ==== Sys2Proof/Laws/HostCall.lean ====
section
/-! SUPPORT. Runs of the engine under a host that waits: the engine does not look at what the host does or has read, and
what a call's actions leave (spec/30_encoding.md R83, R84, spec/70_reset_and_hazards.md R194). -/

namespace Sys2Proof.Machine

variable {p : Config.Params}

/-! ## The engine and the host's own fields -/

/-- A state with other events to come and another last answer. -/
abbrev MachineState.withHost (s : MachineState p) (v : List Event) (d : HostData) : MachineState p :=
  (s.withSchedule v).withHostData d

/-- The result of a micro-operation with other events to come and another last answer. -/
def Micro.withHost (v : List Event) (d : HostData) : Micro p → Micro p
  | .cont s => .cont (s.withHost v d)
  | .ended s => .ended (s.withHost v d)

theorem Micro.state_withHost (v d) (m : Micro p) : (m.withHost v d).state = m.state.withHost v d := by
  cases m <;> rfl

theorem Micro.withHost_andThen (v d) (m : Micro p) (f : MachineState p → Micro p)
    (hf : ∀ s, f (s.withHost v d) = (f s).withHost v d) :
    (m.withHost v d).andThen f = (m.andThen f).withHost v d := by
  cases m with
  | cont s => exact hf s
  | ended s => rfl

theorem fetch_withHost (n : Nat) (s : MachineState p) (v d) : fetch n (s.withHost v d) = (fetch n s).withHost v d := by
  by_cases h : s.lat.l.toNat ≤ n * s.lat.s.toNat + 2
  · rw [fetch_oob n s h, fetch_oob n (s.withHost v d) h]; rfl
  · rw [fetch_ok n s (by omega), fetch_ok n (s.withHost v d) (Nat.lt_of_not_le h)]; rfl

theorem outWrite_withHost (n a b) (s : MachineState p) (v d) :
    outWrite n a b (s.withHost v d) = (outWrite n a b s).withHost v d := by
  by_cases h : s.lat.olen.toNat ≤ a
  · rw [outWrite_oob _ _ _ s h, outWrite_oob _ _ _ (s.withHost v d) h]; rfl
  · rw [outWrite_ok _ _ _ s (by omega), outWrite_ok _ _ _ (s.withHost v d) (Nat.lt_of_not_le h)]; rfl

theorem ystore_withHost (n) (s : MachineState p) (v d) : ystore n (s.withHost v d) = (ystore n s).withHost v d := by
  show (outWrite n s.seq.ycur.toNat (byteOf s.dp.yq) (s.withHost v d)).andThen _ = _
  rw [outWrite_withHost, Micro.withHost_andThen _ _ _ _ fun _ => rfl]; rfl

theorem chromaStore_withHost (n) (s : MachineState p) (v d) :
    chromaStore n (s.withHost v d) = (chromaStore n s).withHost v d := by
  have hc : (s.withHost v d).dp.cgate = s.dp.cgate := rfl
  have hm : (s.withHost v d).lat.mode = s.lat.mode := rfl
  unfold chromaStore
  rw [hc, hm]
  split
  · split
    · show (outWrite n s.seq.ccur.toNat (byteOf s.dp.uq) (s.withHost v d)).andThen _ = _
      rw [outWrite_withHost, Micro.withHost_andThen]
      · rfl
      · intro t
        show (outWrite n (t.seq.ccur.toNat + t.lat.voff.toNat) (byteOf t.dp.vq) (t.withHost v d)).andThen _ = _
        rw [outWrite_withHost, Micro.withHost_andThen _ _ _ _ fun _ => rfl]
    · show (outWrite n s.seq.ccur.toNat (byteOf s.dp.uq) (s.withHost v d)).andThen _ = _
      rw [outWrite_withHost, Micro.withHost_andThen]
      · rfl
      · intro t
        show (outWrite n (incCcur t).seq.ccur.toNat (byteOf (incCcur t).dp.vq) ((incCcur t).withHost v d)).andThen _ = _
        rw [outWrite_withHost, Micro.withHost_andThen _ _ _ _ fun _ => rfl]
  · rfl

theorem advance_withHost (s : MachineState p) (v d) : advance (s.withHost v d) = (advance s).withHost v d := by
  rw [advance_eq, advance_eq]; rfl

/-- A pixel step does not look at the events to come or at the host's last answer, and leaves them (R95, R194). -/
theorem pixelStep_withHost (s : MachineState p) (v d) : pixelStep (s.withHost v d) = (pixelStep s).withHost v d := by
  unfold pixelStep pixelMicro
  rw [← Micro.state_withHost, ← Micro.withHost_andThen, ← fetch_withHost]
  · rfl
  intro s
  rw [← Micro.withHost_andThen, ← ystore_withHost]
  · rfl
  intro s
  rw [← Micro.withHost_andThen, ← chromaStore_withHost]
  · rfl
  intro s
  rw [advance_withHost]; rfl

/-- No turn of the engine does. -/
theorem engineTurns_withHost (k : Nat) (s : MachineState p) (v d) :
    engineTurns k (s.withHost v d) = (engineTurns k s).withHost v d := by
  induction k generalizing s with
  | zero => rfl
  | succ k ih =>
    have he : engineTurn (s.withHost v d) = (engineTurn s).withHost v d := by
      by_cases h : s.status.state = .busy
      · rw [engineTurn, engineTurn, if_pos h, if_pos (by exact h), pixelStep_withHost]
      · rw [engineTurn, engineTurn, if_neg h, if_neg (by exact h)]
    rw [engineTurns, engineTurns, he, ih]

/-- `Start` does not either (R91). -/
theorem start_withHost (layout : Layout) (s : MachineState p) (v d) :
    start layout (s.withHost v d) = (start layout s).withHost v d := by
  unfold start
  by_cases h : p.maxPixels < (latch layout s).lat.n.toNat
  · rw [if_pos h, if_pos (by exact h)]; rfl
  · rw [if_neg h, if_neg (by exact h)]
    rfl

/-! ## Runs of the engine -/

/-- While not `BUSY` the engine does nothing (R97). -/
theorem engineTurns_not_busy (k : Nat) (s : MachineState p) (h : s.status.state ≠ .busy) : engineTurns k s = s := by
  induction k with
  | zero => rfl
  | succ k ih => simp only [engineTurns, engineTurn, if_neg h]; exact ih

theorem engineTurns_busy (k : Nat) (s : MachineState p) (h : s.status.state = .busy) :
    engineTurns (k + 1) s = engineTurns k (pixelStep s) := by
  simp only [engineTurns, engineTurn, if_pos h]

/-- No run of the engine changes the configuration registers, the latched parameters, `IN`, `OUT_LEN` or the model's own
fields (R23, R37, R39). -/
theorem engineTurns_sameEnv (k : Nat) (s : MachineState p) : SameEnv s (engineTurns k s) := by
  induction k generalizing s with
  | zero => simp [engineTurns, SameEnv]
  | succ k ih => exact (engineTurn_sameEnv s).trans (ih _)

/-- A pixel step of a running operation: a fault, or the last pixel, or one pixel further. -/
theorem Running.turn_cases {s : MachineState p} (ha : Adequate p) (h : Running s) (hb : s.status.state = .busy) :
    (pixelStep s).status.state = .fault ∨
    ((pixelStep s).status.state = .done ∧ s.seq.index.toNat + 1 = s.lat.n.toNat) ∨
    ((pixelStep s).status.state = .busy ∧ Running (pixelStep s) ∧
      (pixelStep s).seq.index.toNat = s.seq.index.toNat + 1 ∧ (pixelStep s).lat = s.lat ∧
      s.seq.index.toNat + 1 < s.lat.n.toNat) := by
  have hl := (pixelStep_sameEnv s).2.1
  have hi := h.index_pixelStep ha
  cases h.turnOutcome ha hb with
  | running hb' h' =>
    have := hi (by simp [hb'])
    refine .inr (.inr ⟨hb', h', this, hl, ?_⟩)
    have := h'.2.2.2.2.2; rw [hl] at this; omega
  | finished hd h' =>
    have := hi (by simp [hd])
    refine .inr (.inl ⟨hd, ?_⟩)
    have h2 := h'.2.2.1; rw [hl] at h2; rw [h2] at this; omega
  | fault hf _ => exact .inl hf

/-- The program of R98 reads `IN` only below `L` (R52). -/
theorem convertLoop_congr (job : Job) (f g : Nat → Byte) (h : ∀ a, a < job.l → f a = g a) :
    ∀ (fuel n ycur ccur : Nat) (out : List Byte),
      convertLoop job f fuel n ycur ccur out = convertLoop job g fuel n ycur ccur out := by
  intro fuel
  induction fuel with
  | zero => intros; rfl
  | succ fuel ih =>
    intro n ycur ccur out
    unfold convertLoop
    split
    · rfl
    · split
      · rfl
      · split
        · rfl
        · rw [h _ (by omega), h _ (by omega), h _ (by omega)]
          simp only [ih]

/-! ## The events of a call -/

/-- While `BUSY` a poll of `WAIT` gives the engine a turn; then the wait is over (R83, R170). -/
theorem runSchedule_wait (rest : List Event) (k : Nat) :
    ∀ (turns : Nat) (s : MachineState p), s.schedule = .wait :: rest → (engineTurns k s).status.state ≠ .busy →
      k < turns →
      ∃ left, turns ≤ left + k + 1 ∧
        runSchedule turns s = runSchedule left ((engineTurns k s).withHost rest
          (.reg 32 (statusWord (engineTurns k s).status.state))) := by
  induction k with
  | zero =>
    intro turns s hs hb ht
    obtain ⟨left, rfl⟩ : ∃ left, turns = left + 1 := ⟨turns - 1, by omega⟩
    refine ⟨left, by omega, ?_⟩
    have hb' : s.status.state ≠ .busy := hb
    simp only [runSchedule, nextEvent, hs, runEvent, hostWait]
    rw [if_neg (by exact hb')]; rfl
  | succ k ih =>
    intro turns s hs hb ht
    obtain ⟨left, rfl⟩ : ∃ left, turns = left + 1 := ⟨turns - 1, by omega⟩
    by_cases hb' : s.status.state = .busy
    · have hstep : runSchedule (left + 1) s =
          runSchedule left ((pixelStep s).withHost (.wait :: rest) (.reg 32 (statusWord .busy))) := by
        simp only [runSchedule, nextEvent, hs, runEvent, hostWait]
        rw [if_pos (by exact hb')]
        show runSchedule left (engineTurn (s.withHost (.wait :: rest) (.reg 32 (statusWord s.status.state)))) = _
        rw [engineTurn, if_pos (by exact hb'), hb', pixelStep_withHost]
      rw [engineTurns_busy k s hb'] at hb ⊢
      obtain ⟨left', h1, h2⟩ := ih left ((pixelStep s).withHost (.wait :: rest) (.reg 32 (statusWord .busy))) rfl
        (by rw [engineTurns_withHost]; exact hb) (by omega)
      refine ⟨left', by omega, ?_⟩
      rw [hstep, h2, engineTurns_withHost]; rfl
    · rw [engineTurns_not_busy _ _ hb'] at hb ⊢
      refine ⟨left, by omega, ?_⟩
      simp only [runSchedule, nextEvent, hs, runEvent, hostWait]
      rw [if_neg (by exact hb')]; rfl

/-- What the set-up of a call leaves (R84): the four registers written and the pixels loaded. -/
def prepared (s : MachineState p) (pixels : List Byte) (width height : BitVec p.dimBits)
    (bytesPerPixel : BitVec p.bppBits) : MachineState p :=
  (s.withCfg { width := width, height := height, bpp := bytesPerPixel
               inLen := BitVec.ofNat p.addrBits pixels.length }).withIn (s.inMem.writeBytes 0 pixels)

/-- What one action of a set-up does. -/
def setUpStep (s : MachineState p) : Event → MachineState p
  | .wr num _ v =>
    match num with
    | 0 => s.withCfg { s.cfg with width := v.setWidth _ }
    | 1 => s.withCfg { s.cfg with height := v.setWidth _ }
    | 2 => s.withCfg { s.cfg with bpp := v.setWidth _ }
    | 3 => s.withCfg { s.cfg with inLen := v.setWidth _ }
    | _ => s
  | .ldin a vs => s.withIn (s.inMem.writeBytes a vs)
  | _ => s

/-- The actions of a set-up are over in one step each, and leave the same in every order (R84). -/
theorem runSchedule_setUp (pixels : List Byte) (width height : BitVec p.dimBits) (bytesPerPixel : BitVec p.bppBits)
    (setUp rest : List Event) (turns : Nat) (s : MachineState p)
    (hp : setUp.Perm (setUpEvents p pixels width height bytesPerPixel)) (hl : pixels.length < 2 ^ p.addrBits)
    (hb : s.status.state ≠ .busy) :
    runSchedule (turns + 5) (s.withSchedule (setUp ++ rest)) =
      runSchedule turns ((prepared s pixels width height bytesPerPixel).withSchedule rest) := by
  have hone : ∀ e ∈ setUpEvents p pixels width height bytesPerPixel, ∀ (rest : List Event) (s : MachineState p),
      s.status.state ≠ .busy →
      nextEvent (s.withSchedule (e :: rest)) = .next ((setUpStep s e).withSchedule rest) ∧
        (setUpStep s e).status = s.status := by
    intro e he rest s hb
    simp only [setUpEvents, List.mem_cons, List.not_mem_nil, or_false] at he
    rcases he with rfl | rfl | rfl | rfl | rfl
    · refine ⟨?_, rfl⟩
      simp only [nextEvent, MachineState.withSchedule_schedule, runEvent, hostLoadIn]
      split
      · subst ‹pixels = []›; rfl
      · rw [if_neg (by exact hb), if_neg (by unfold Config.Params.addressSpace; omega)]; rfl
    all_goals
      refine ⟨?_, rfl⟩
      simp [nextEvent, runEvent, hostWrite, Reg.ofNum, Reg.bits, writeReg, setUpStep, MachineState.withSchedule,
        MachineState.withCfg]
  have hrun : ∀ (l : List Event), (∀ e ∈ l, e ∈ setUpEvents p pixels width height bytesPerPixel) →
      ∀ s : MachineState p, s.status.state ≠ .busy →
      runSchedule (turns + l.length) (s.withSchedule (l ++ rest)) =
        runSchedule turns ((l.foldl setUpStep s).withSchedule rest) := by
    intro l
    induction l with
    | nil => intro _ s _; rfl
    | cons e l ih =>
      intro hl s hb
      obtain ⟨h1, h2⟩ := hone e (hl e (by simp)) (l ++ rest) s hb
      rw [List.length_cons, ← Nat.add_assoc, runSchedule]
      simp only [MachineState.withSchedule_schedule, List.cons_append, h1]
      exact ih (fun e h => hl e (by simp [h])) _ (by rw [h2]; exact hb)
  have hlen : setUp.length = 5 := hp.length_eq
  have := hrun setUp (fun e h => hp.mem_iff.1 h) s hb
  rw [hlen] at this
  rw [this, List.Perm.foldl_eq' hp]
  · simp [setUpEvents, setUpStep, prepared, MachineState.withCfg, MachineState.withIn]
  · intro x hx y hy z
    have hx := hp.mem_iff.1 hx
    have hy := hp.mem_iff.1 hy
    simp only [setUpEvents, List.mem_cons, List.not_mem_nil, or_false] at hx hy
    rcases hx with rfl | rfl | rfl | rfl | rfl <;> rcases hy with rfl | rfl | rfl | rfl | rfl <;> rfl

end Sys2Proof.Machine
end

