-- ==== Sys2Proof/Laws/PerInstr.lean ====
section
/-! SUPPORT. One lemma per command: its word decodes to it. -/

namespace Sys2Proof.Laws.RoundTrip

/-- A well-formed command's word decodes to that command (R67, R68). -/
def Statement (i : Instr) : Prop := i.WellFormed = true → decode (encode i) = .ok i

theorem convertPlanar : Statement .convertPlanar := fun _ => by decide

theorem convertNv12 : Statement .convertNv12 := fun _ => by decide

theorem nop (layout : BitVec 1) : Statement (.nop layout) := fun _ => by simp [decode, encode]

end Sys2Proof.Laws.RoundTrip
end

