-- ==== Sys2Proof/Tests/Slice0.lean ====
section
/-! SUPPORT. Small tests with expected values from the spec, and one witness for every statement that has hypotheses:
a concrete state and operands that meet all of them together. -/

namespace Sys2Proof.Tests

open Sys2Proof.Machine

/-! ## Helpers -/

/-- This hardware's machine. -/
abbrev Machine := MachineState Config.hardware

/-- A machine as a state of this hardware. -/
def hw (s : Machine) : State := { toMachineState := s }

/-- The machine after reset. -/
def fresh : Machine := State.reset.toMachineState

/-- The next state of a step; the reset state where there is none. -/
def after : Host.Outcome State Fault Refusal → Machine
  | .next s => s.toMachineState
  | .fault _ => fresh
  | .refused _ => fresh

/-- Whether a step is refused, and why. -/
def refusal : Host.Outcome State Fault Refusal → Option Refusal
  | .next _ => none
  | .fault _ => none
  | .refused r => some r

/-- Whether a step is a fault of the model, and which. -/
def faultOf : Host.Outcome State Fault Refusal → Option Fault
  | .next _ => none
  | .fault f => some f
  | .refused _ => none

/-- The machine after reset with configuration registers and input bytes. -/
def loaded (width height bpp : BitVec 32) (inLen : BitVec 64) (pixels : List Byte) : Machine :=
  { fresh with
    cfg := { width := width, height := height, bpp := bpp, inLen := inLen }
    inMem := Memory.blank.writeBytes 0 pixels }

/-- Red, green, blue, white. -/
def colours : List Byte := [255, 0, 0, 0, 255, 0, 0, 0, 255, 255, 255, 255]

/-- A 2×2 image of those pixels, before a command. -/
def image : Machine := loaded 2 2 3 12 colours

/-- A running operation on that image, `k` pixels done. -/
def running (layout : Layout) (k : Nat) : Machine := engineTurns k (start layout image)

/-- A state with events to come. -/
def scheduled (events : List Event) (s : Machine) : State := hw (s.withSchedule events)

/-- A machine whose `OUT` has `olen` bytes and whose cursors stand at an address. -/
def storing (cursor olen voff : BitVec 64) : Machine :=
  { fresh with
    lat := { fresh.lat with olen := olen, voff := voff }
    seq := { fresh.seq with ycur := cursor, ccur := cursor } }

/-! ## Well-formedness: one ill-formed term for each check -/

theorem test_wf_refuses_register_ten : (Event.wr 10 32 0).WellFormed Config.hardware = false := by decide
theorem test_wf_refuses_narrow_write : (Event.wr 3 32 0).WellFormed Config.hardware = false := by decide
theorem test_wf_refuses_wide_read : (Event.rd 5 64).WellFormed Config.hardware = false := by decide
theorem test_wf_refuses_load_beyond_in : (Event.ldin (2 ^ 64 - 1) [1, 2]).WellFormed Config.hardware = false := by decide
theorem test_wf_refuses_read_beyond_in : (Event.rdin (2 ^ 64) 1).WellFormed Config.hardware = false := by decide
theorem test_wf_refuses_write_of_out : (Event.wrout 0 []).WellFormed Config.hardware = false := by decide
theorem test_wf_accepts_command : (commandEvent .convertNv12).WellFormed Config.hardware = true := by decide

/-! ## Decoding: words written out bit by bit from R67 and R68 -/

theorem test_decode_planar : decode 0b00000000000000000000000000000001 = .ok .convertPlanar := by decide
theorem test_decode_nv12 : decode 0b00000000000000000000000000000011 = .ok .convertNv12 := by decide
theorem test_decode_nop : decode 0b00000000000000000000000000000000 = .ok (.nop 0) := by decide
theorem test_decode_nop_layout : decode 0b00000000000000000000000000000010 = .ok (.nop 1) := by decide
theorem test_decode_refuses_bit2 :
    decode 0b00000000000000000000000000000101 = .error (.reservedBitsSet 1) := by decide
theorem test_decode_refuses_bit31 :
    decode 0b10000000000000000000000000000001 = .error (.reservedBitsSet 0x20000000) := by decide
theorem test_decodeTableWord : decodeTableWord 32 3 = some .convertNv12 ∧ decodeTableWord 32 4 = none := by decide

/-! ## Commands -/

/-- R91 for 2×2 (R7: `OLEN` = 6, `CPS` = 1, `VOFF` = 1; `CCUR` = `N` = 4). -/
theorem test_planar_starts :
    let t := after (step ((hw image).withFetchWord 32 1))
    t.status.state = .busy ∧ t.status.outLen = 6 ∧ t.seq.ccur = 4 ∧ t.lat.voff = 1 ∧ t.lat.mode = .planar := by
  decide

/-- R160: 65536×21846 is 1431699456 pixels, above `MAX_PIXELS` (vector V-FLT of 95_test_vectors.md). -/
theorem test_planar_geom :
    (after (exec .convertPlanar (hw (loaded 65536 21846 3 0 [])))).status =
      { state := .fault, cause := .geom, faddr := 0, fpix := 0, outLen := 0 } := by decide

theorem test_nv12_starts :
    let t := after (step ((hw image).withFetchWord 32 3))
    t.status.state = .busy ∧ t.status.outLen = 6 ∧ t.lat.mode = .nv12 ∧ t.schedule = [] := by decide

/-- R92: 0×5 ends in `DONE` at once with no output (R101: 0×5 gives length 0). -/
theorem test_nv12_empty :
    (after (exec .convertNv12 (hw (loaded 0 5 0 0 [])))).status =
      { state := .done, cause := .none, faddr := 0, fpix := 0, outLen := 0 } := by decide

/-- R90: `NOP` does not clear `DONE`. -/
theorem test_nop_keeps_done : (after (exec (.nop 1) (hw (running .planar 4)))).status.state = .done := by decide

/-- R93: a command while `BUSY` is lost. -/
theorem test_busy_ignores_command :
    after (step (scheduled [.wr 4 32 3] (running .planar 1))) = running .planar 1 := by decide

/-! ## The datapath (R121) -/

theorem test_yuv_red : yuv Config.wired 255 0 0 = (77, 85, 255) := by decide
theorem test_yuv_green : yuv Config.wired 0 255 0 = (149, 44, 22) := by decide
theorem test_yuv_blue : yuv Config.wired 0 0 255 = (29, 255, 107) := by decide
theorem test_yuv_yellow : yuv Config.wired 255 255 0 = (226, 1, 149) := by decide
theorem test_yuv_cyan : yuv Config.wired 0 255 255 = (178, 171, 1) := by decide
theorem test_yuv_floor : yuv Config.wired 3 0 0 = (1, 127, 129) := by decide
theorem test_yuv_mixed : yuv Config.wired 200 100 50 = (124, 86, 182) := by decide

/-- R10: the shift rounds toward minus infinity. -/
theorem test_shift : arithShiftRight (-1) 8 = -1 ∧ arithShiftRight (-257) 8 = -2 ∧ arithShiftRight 255 8 = 0 := by
  decide

/-- R112: the corner cases of the clamp. -/
theorem test_clamp : clamp 8 (-1) = 0 ∧ clamp 8 0 = 0 ∧ clamp 8 255 = 255 ∧ clamp 8 256 = 255 := by decide

/-! ## The pixel step -/

/-- The second pixel of the image, green, is kept in row 0, column 1 (R126): Y at 1, U at 4, V at 5 (R121). -/
theorem test_pixel_kept :
    let t := running .planar 2
    t.outMem.read 1 = some 149 ∧ t.outMem.read 4 = some 44 ∧ t.outMem.read 5 = some 22 ∧ t.seq.ccur = 5 := by decide

/-- R158: 2×2, stride 3, `L` = 11 faults at pixel 3, address 11. -/
theorem test_input_fault :
    (engineTurns 4 (start .planar (loaded 2 2 3 11 colours))).status =
      { state := .fault, cause := .inOob, faddr := 11, fpix := 3, outLen := 6 } := by decide

/-- R144: 2×1 in NV12 faults at address 3, pixel 1. -/
theorem test_output_fault :
    (engineTurns 2 (start .nv12 (loaded 2 1 3 6 colours))).status =
      { state := .fault, cause := .outOob, faddr := 3, fpix := 1, outLen := 3 } := by decide

/-- R143: 2×1 planar, pixels red and blue, gives 77, 29, 107. -/
theorem test_tiny_planar :
    let t := engineTurns 2 (start .planar (loaded 2 1 3 6 [255, 0, 0, 0, 0, 255]))
    t.status.state = .done ∧ t.outMem.read 0 = some 77 ∧ t.outMem.read 1 = some 29 ∧ t.outMem.read 2 = some 107 := by
  decide

/-! ## Memory and the host's side -/

/-- Writing back the value an unlisted byte reads as removes the entry. -/
theorem test_memory_canonical :
    ((Memory.blank.zeroFill 4).write 2 7).write 2 0 = Memory.blank.zeroFill 4 := by decide

theorem test_read_status : (after (step (scheduled [.rd 5 32] (running .planar 1)))).hostData = .reg 32 1 := by decide

theorem test_read_out :
    (after (step (scheduled [.rdout 3 3] (running .nv12 4)))).hostData = .bytes [255, 44, 22] := by
  decide +kernel

theorem test_out_unreadable_while_busy :
    refusal (step (scheduled [.rdout 0 1] (running .nv12 3))) = some .outReadOutsideDone := by decide

theorem test_load_beyond_in_faults :
    faultOf (step (scheduled [.ldin (2 ^ 64) [1]] fresh)) = some (.inAddressOutsideSpace (2 ^ 64)) := by decide

/-- The bytes that a call returns; none where it does not return. -/
def returned : Host.Outcome (CallEnd × Machine) Fault Refusal → Option (List Byte)
  | .next (.returned out, _) => some out
  | .next (.terminated, _) => none
  | .next (.waiting, _) => none
  | .fault _ => none
  | .refused _ => none

/-- R84 with R143: 2×1, red and blue, gives 77, 29, 107. -/
theorem test_call_planar :
    returned (convertToPlanar 10 [255, 0, 0, 0, 0, 255] 2 1 3 fresh) = some [77, 29, 107] := by decide +kernel

/-- R84 with R140: 2×2 in NV12, its second pixel kept. -/
theorem test_call_nv12 :
    returned (convertToSemiPlanarNv12 12 colours 2 2 3 fresh) = some [77, 149, 29, 255, 44, 22] := by
  decide +kernel

/-- The memory at reset is in canonical form. -/
theorem test_reset_wf : State.reset.inMem.wf ∧ State.reset.outMem.wf := by decide

/-! ## Witnesses: the hypotheses of each statement, met together -/

theorem witness_DecodeEncodeAgree :
    Instr.WellFormed (.nop 1) = true ∧ decode 0x00000002 = .ok (.nop 1) := by decide

/-- Both layouts; the largest accepted frame, 5×286331153, and the smallest refused one, 2×715827883. -/
theorem witness_ConvertStartsOperation :
    (Instr.convertPlanar = .convertPlanar ∧ Layout.planar = .planar) ∧
    (Instr.convertNv12 = .convertNv12 ∧ Layout.nv12 = .nv12) ∧
    (loaded 5 286331153 3 0 []).status.state ≠ .busy ∧
    (loaded 5 286331153 3 0 []).cfg.width.toNat * (loaded 5 286331153 3 0 []).cfg.height.toNat ≤ 1431655765 ∧
    (loaded 2 715827883 3 0 []).status.state ≠ .busy ∧
    1431655765 < (loaded 2 715827883 3 0 []).cfg.width.toNat * (loaded 2 715827883 3 0 []).cfg.height.toNat := by
  decide

theorem witness_DegenerateGeometryCompletes :
    (loaded 0 5 3 0 []).status.state ≠ .busy ∧ (loaded 0 5 3 0 []).cfg.width = 0 ∧
    (loaded 5 0 3 0 []).status.state ≠ .busy ∧ (loaded 5 0 3 0 []).cfg.height = 0 := by decide

theorem witness_CommandWriteIgnoredWhileBusy :
    let s := scheduled [.wr 4 32 1] (running .planar 1)
    s.status.state = .busy ∧ s.schedule = .wr 4 32 1 :: [] := by decide

theorem witness_IllegalWordFaults :
    let s := scheduled [.wr 4 32 4] fresh
    let t := scheduled [.wr 4 32 4] (running .nv12 1)
    (4 : Word32).extractLsb' 2 30 ≠ 0 ∧ s.schedule = .wr 4 32 4 :: [] ∧ s.status.state ≠ .busy ∧
      t.schedule = .wr 4 32 4 :: [] ∧ t.status.state = .busy := by decide

theorem witness_StepRunsDecodedCommand :
    (scheduled [.wr 4 32 1] image).schedule = .wr 4 32 1 :: [] ∧ decode 1 = .ok .convertPlanar := by decide

theorem witness_PlacedWordRunsNext : decodeTableWord 32 3 = some .convertNv12 := by decide

theorem witness_EngineMovesOnlyWhileBusy :
    ((running .planar 1).schedule = [] ∧ ([] : List Event) = []) ∧ (running .planar 1).status.state = .busy ∧
    (scheduled [.engine] fresh).schedule = .engine :: [] ∧ fresh.status.state ≠ .busy := by decide

/-- The last pixel, whose last byte is the last byte of the input. -/
theorem witness_FetchLoadsPixel :
    8 ≤ Config.hardware.sampleBits ∧
    3 * (running .planar 3).lat.s.toNat + 2 < (running .planar 3).lat.l.toNat := by decide

/-- The pixel after it, and a stride of 0 with no input at all. -/
theorem witness_FetchOutOfBoundsFaults :
    (running .planar 3).lat.l.toNat ≤ 4 * (running .planar 3).lat.s.toNat + 2 ∧
    fresh.lat.l.toNat ≤ 0 * fresh.lat.s.toNat + 2 := by decide

/-- This hardware's parameters meet what the statements over any adequate parameters ask. -/
theorem witness_adequate : Adequate Config.hardware := adequate_hardware

/-- So do those of R6's alternatives: `VOFF_MODE` = FULL, `CPHASE` = 0. -/
theorem witness_adequate_alternatives :
    Adequate { Config.hardware with voffMode := .full, cphase := .evenColumns } :=
  hardware_adequate 18 (by decide) .full .evenColumns

/-- For `LumaAccumulator`, `ChromaUAccumulator`, `ChromaVAccumulator`, `ClampNeverSaturates`, `DatapathComputesYuv`: this
hardware, and the narrowest accumulators that suffice (R116). -/
theorem witness_WiredDatapath :
    WiredDatapath Config.hardware ∧ WiredDatapath { Config.hardware with accBits := 17 } := by decide

theorem witness_ClampSaturates : 8 ≤ Config.hardware.sampleBits := by decide

theorem witness_SeventeenBitsSuffice :
    17 ≤ 17 ∧ (Config.wired.rowU = Config.wired.rowY ∨ Config.wired.rowU = Config.wired.rowU ∨
      Config.wired.rowU = Config.wired.rowV) := by decide

/-- Row 0, column 1, kept. -/
theorem witness_GateByRowAndColumn :
    let s := running .planar 1
    s.seq.index.toNat = s.seq.j.toNat * s.lat.w.toNat + s.seq.i.toNat ∧ s.seq.i.toNat < s.lat.w.toNat ∧
      s.seq.index.toNat + 1 < 2 ^ 64 ∧ (cgate (incIndex s)).dp.cgate = true := by decide

theorem witness_KeptSampleCount : 4 % 2 = 0 ∧ 2 % 2 = 0 := by decide

/-- The last kept sample of a 4×4 image (R128: there are 4), and the only one of 1×1 with `CPHASE` = 0. -/
theorem witness_KeptSampleOrder :
    3 < keptCount .oddColumns 4 4 ∧ ¬ 4 < keptCount .oddColumns 4 4 ∧ 0 < keptCount .evenColumns 1 1 := by decide

/-- The last byte of `OUT`, and the first address past it. -/
theorem witness_LumaStore :
    (storing 5 6 1).seq.ycur.toNat < (storing 5 6 1).lat.olen.toNat ∧
    (storing 6 6 1).lat.olen.toNat ≤ (storing 6 6 1).seq.ycur.toNat := by decide

/-- First store out; second store out; both in, the second at the last byte. -/
theorem witness_PlanarChromaStore :
    (storing 6 6 1).lat.olen.toNat ≤ (storing 6 6 1).seq.ccur.toNat ∧
    ((storing 5 6 1).seq.ccur.toNat < (storing 5 6 1).lat.olen.toNat ∧
      (storing 5 6 1).lat.olen.toNat ≤ (storing 5 6 1).seq.ccur.toNat + (storing 5 6 1).lat.voff.toNat) ∧
    (storing 4 6 1).seq.ccur.toNat + (storing 4 6 1).lat.voff.toNat < (storing 4 6 1).lat.olen.toNat := by decide

theorem witness_InterleavedChromaStore :
    (storing 6 6 0).seq.ccur.toNat + 1 < 2 ^ 64 ∧ (storing 6 6 0).lat.olen.toNat ≤ (storing 6 6 0).seq.ccur.toNat ∧
    (storing 5 6 0).seq.ccur.toNat + 1 < 2 ^ 64 ∧
    ((storing 5 6 0).seq.ccur.toNat < (storing 5 6 0).lat.olen.toNat ∧
      (storing 5 6 0).lat.olen.toNat ≤ (storing 5 6 0).seq.ccur.toNat + 1) ∧
    (storing 4 6 0).seq.ccur.toNat + 1 < 2 ^ 64 ∧
    (storing 4 6 0).seq.ccur.toNat + 1 < (storing 4 6 0).lat.olen.toNat := by decide

theorem witness_running_planar : Running (running .planar 1) := by decide

theorem witness_running_nv12 : Running (running .nv12 1) := by decide

/-- A kept pixel in either layout, its V byte at the last byte of `OUT`, and a dropped one. -/
theorem witness_PixelStepCompletes :
    Running (running .planar 1) ∧ (running .planar 1).status.state = .busy ∧
    FetchInBounds (running .planar 1) 1 ∧ (running .planar 1).seq.index.toNat = 1 ∧
    keepsChroma .oddColumns 2 1 = true ∧
    (running .planar 1).seq.ccur.toNat + (running .planar 1).lat.voff.toNat < (running .planar 1).lat.olen.toNat ∧
    Running (running .nv12 3) ∧ (running .nv12 3).status.state = .busy ∧
    FetchInBounds (running .nv12 3) 3 ∧ keepsChroma .oddColumns 2 3 = false := by decide

/-- One byte of the fourth pixel is missing. -/
theorem witness_PixelStepInputFault :
    let s := engineTurns 3 (start .planar (loaded 2 2 3 11 colours))
    s.status.state = .busy ∧ ¬ FetchInBounds s s.seq.index.toNat := by decide

/-- 2×1 in NV12 at pixel 1, where the V store fails, and 5×1 in NV12 at pixel 3, where the U store fails. -/
theorem witness_PixelStepOutputFault :
    let s := engineTurns 1 (start .nv12 (loaded 2 1 3 6 colours))
    let t := engineTurns 3 (start .nv12 (loaded 5 1 0 3 colours))
    (Running s ∧ s.status.state = .busy ∧ FetchInBounds s s.seq.index.toNat ∧
      keepsChroma .oddColumns s.lat.w.toNat s.seq.index.toNat = true ∧ s.lat.mode = .nv12 ∧
      s.lat.olen.toNat ≤ s.seq.ccur.toNat + 1 ∧ s.seq.ccur.toNat < s.lat.olen.toNat) ∧
    (Running t ∧ t.status.state = .busy ∧ FetchInBounds t t.seq.index.toNat ∧
      keepsChroma .oddColumns t.lat.w.toNat t.seq.index.toNat = true ∧ t.lat.mode = .nv12 ∧
      t.lat.olen.toNat ≤ t.seq.ccur.toNat) := by decide

/-- 4×1 planar at pixel 3, where the V store fails (R145). -/
theorem witness_PixelStepOutputFault_planar :
    let s := engineTurns 3 (start .planar (loaded 4 1 3 12 colours))
    Running s ∧ s.status.state = .busy ∧ FetchInBounds s s.seq.index.toNat ∧
      keepsChroma .oddColumns s.lat.w.toNat s.seq.index.toNat = true ∧ s.lat.mode = .planar ∧
      s.lat.olen.toNat ≤ s.seq.ccur.toNat + s.lat.voff.toNat := by decide

/-- Two contents of `OUT` that differ at address 0, which the second pixel step leaves, and at 1, which it stores to. -/
theorem witness_OutputNeverRead :
    let s := running .planar 1
    let m := (s.outMem.write 0 8).write 1 9
    m.read 0 ≠ s.outMem.read 0 ∧ m.read 1 ≠ s.outMem.read 1 ∧
      (pixelStep (s.withOut m)).outMem.read 0 = m.read 0 ∧
      (pixelStep (s.withOut m)).outMem.read 1 = (pixelStep s).outMem.read 1 := by decide

theorem witness_LumaNeverOverruns : Running (running .nv12 3) := by decide

/-- An even height, and a step that does fault: on its input. -/
theorem witness_EvenHeightNeverOverruns :
    let s := engineTurns 3 (start .nv12 (loaded 2 2 3 11 colours))
    Running s ∧ s.status.state = .busy ∧ s.lat.h.toNat % 2 = 0 ∧
      (pixelStep s).status.state = .fault := by decide

theorem witness_inv_reset : Inv fresh :=
  ⟨by decide, by decide, by decide, by decide⟩

theorem witness_inv_running : Inv (running .planar 3) :=
  ⟨by decide, by decide, by decide, by decide⟩

theorem witness_inv_done : Inv (running .nv12 4) :=
  ⟨by decide, by decide, by decide, by decide⟩

/-- The last pixel step of an operation. -/
theorem witness_InvariantKept :
    Inv (running .planar 3) ∧ step (hw (running .planar 3)) = .next (hw (running .planar 4)) :=
  ⟨witness_inv_running, rfl⟩

theorem witness_OutputBytesHaveValues : Inv (scheduled [.rdout 0 6] (running .nv12 4)).toMachineState :=
  ⟨by decide, by decide, by decide, by decide⟩

/-- A step that changes `STATE`: the last pixel step, a command, an illegal word, a reset. -/
theorem witness_StateChangesOnlyAsListed :
    (step (hw (running .planar 3)) = .next (hw (running .planar 4)) ∧
      (running .planar 4).status.state ≠ (running .planar 3).status.state) ∧
    (step (scheduled [.wr 4 32 1] image) = .next (hw (running .planar 0)) ∧
      (running .planar 0).status.state ≠ (scheduled [.wr 4 32 1] image).status.state) ∧
    (step (scheduled [.wr 4 32 4] image) = .next (hw (raise .illegalCmd 0 0 image)) ∧
      (raise .illegalCmd 0 0 image).status.state ≠ (scheduled [.wr 4 32 4] image).status.state) ∧
    (step (scheduled [.reset] (running .planar 1)) = .next (hw (resetEvent (running .planar 1))) ∧
      (resetEvent (running .planar 1)).status.state ≠ (scheduled [.reset] (running .planar 1)).status.state) :=
  ⟨⟨rfl, by decide⟩, ⟨rfl, by decide⟩, ⟨rfl, by decide⟩, ⟨rfl, by decide⟩⟩

/-- Each way in which a step changes a memory or `OUT_LEN`: a load, a reset, a turn of the engine, a command. -/
theorem witness_MemoriesChangeOnlyAsListed :
    (step (scheduled [.ldin 0 [7]] fresh) = .next (hw (loaded 0 0 0 0 [7])) ∧
      (loaded 0 0 0 0 [7]).inMem ≠ fresh.inMem) ∧
    (step (scheduled [.reset] (running .planar 1)) = .next (hw (resetEvent (running .planar 1))) ∧
      (resetEvent (running .planar 1)).inMem ≠ (running .planar 1).inMem ∧
      (resetEvent (running .planar 1)).outMem ≠ (running .planar 1).outMem ∧
      (resetEvent (running .planar 1)).status.outLen ≠ (running .planar 1).status.outLen) ∧
    (step (hw (running .planar 1)) = .next (hw (running .planar 2)) ∧
      (running .planar 2).outMem ≠ (running .planar 1).outMem) ∧
    (step (scheduled [.wr 4 32 1] image) = .next (hw (running .planar 0)) ∧
      (running .planar 0).outMem ≠ image.outMem ∧ (running .planar 0).status.outLen ≠ image.status.outLen) :=
  ⟨⟨rfl, by decide⟩, ⟨rfl, by decide⟩, ⟨rfl, by decide⟩, ⟨rfl, by decide⟩⟩

/-- All three ends of the program of R98 occur. -/
theorem witness_OperationMatchesReference :
    image.cfg.width.toNat * image.cfg.height.toNat ≤ Config.hardware.maxPixels ∧
    convertReference Config.hardware .nv12 2 2 3 12 (inByte image) = .done [77, 149, 29, 255, 44, 22] ∧
    convertReference Config.hardware .nv12 2 2 3 11 (inByte image) = .inOob 11 3 ∧
    convertReference Config.hardware .nv12 2 1 3 6 (inByte image) = .outOob 3 1 := by decide

theorem witness_OperationEnds :
    Running (running .nv12 1) ∧ (running .nv12 1).status.state = .busy := by decide

/-- The last pixel, under either layout. -/
theorem witness_FinalLumaPlane :
    (running .planar 4).status.state = .done ∧ (running .nv12 4).status.state = .done ∧
    3 < image.cfg.width.toNat * image.cfg.height.toNat := by decide

/-- 2×2 has one kept sample; 3×2 leaves one chroma byte that no store reaches (R148). -/
theorem witness_FinalInterleavedChroma :
    let s := loaded 3 2 0 3 colours
    (running .nv12 4).status.state = .done ∧ 0 < keptCount .oddColumns 2 2 ∧
    (engineTurns 6 (start .nv12 s)).status.state = .done ∧
    2 * keptCount .oddColumns 3 2 ≤ 2 ∧ 2 < 6 / 2 := by decide

/-- 4×2: `VOFF` = 1, two kept samples, and the four bytes of the chroma region. -/
theorem witness_FinalPlanarChroma :
    let s := loaded 4 2 0 3 colours
    (engineTurns 8 (start .planar s)).status.state = .done ∧
    0 < vOffset Config.hardware.voffMode (8 / 4) ∧ 3 < 8 / 2 ∧ 1 < keptCount .oddColumns 4 2 ∧
    max (keptCount .oddColumns 4 2) 1 ≤ 2 ∧ 2 < keptCount .oddColumns 4 2 + 1 := by decide

/-- 3×1 has three pixels and one kept sample. -/
theorem witness_FinalPlanarTinyImage :
    let s := loaded 3 1 3 9 colours
    (engineTurns 3 (start .planar s)).status.state = .done ∧ 3 * 1 ≤ 3 ∧
    0 < keptCount .oddColumns 3 1 := by decide

/-- Two states that differ in an unread byte of `IN`, in `OUT` and in the latched registers. -/
theorem witness_OutcomeDependsOnInputsOnly :
    SameInputs image
      { running .nv12 2 with inMem := (running .nv12 2).inMem.write 12 9, status := fresh.status } := by
  refine ⟨rfl, fun n c hn hc _ => ?_⟩
  have hn' : n < 4 := hn
  interval_cases n <;> interval_cases c <;> rfl

/-- Two states that differ in a byte of the last pixel that lies beyond `IN_LEN` (IN_OOB at address 11, R158). -/
theorem witness_OutcomeDependsOnInputsOnly_short :
    SameInputs (loaded 2 2 3 11 colours) (loaded 2 2 3 11 (colours.set 11 7)) := by
  refine ⟨rfl, fun n c hn hc hl => ?_⟩
  have hn' : n < 4 := hn
  have hl' : n * 3 + c < 11 := hl
  interval_cases n <;> interval_cases c <;> first | rfl | omega

/-- The set-up in the order of R84 and in another; a frame that is converted and one that is refused. -/
theorem witness_CallReturnsBuffer :
    let setUp : List Event := [.wr 2 32 3, .wr 1 32 1, .wr 0 32 2, .wr 3 64 6, .ldin 0 [255, 0, 0, 0, 0, 255]]
    setUp.Perm (setUpEvents Config.hardware [255, 0, 0, 0, 0, 255] 2 1 3) ∧
    ([255, 0, 0, 0, 0, 255] : List Byte).length < 2 ^ Config.hardware.addrBits ∧ fresh.status.state ≠ .busy ∧
    convertReference Config.hardware .planar 2 1 3 6 (fun a => [255, 0, 0, 0, 0, 255].getD a 0) =
      .done [77, 29, 107] ∧
    Config.hardware.maxPixels < (2 : BitVec 32).toNat * (715827883 : BitVec 32).toNat := by decide

theorem witness_RegisterReadReturnsValue :
    (scheduled [.rd 0 32] image).schedule = .rd 0 32 :: [] ∧ (scheduled [.rd 1 32] image).schedule = .rd 1 32 :: [] ∧
    (scheduled [.rd 2 32] image).schedule = .rd 2 32 :: [] ∧ (scheduled [.rd 3 64] image).schedule = .rd 3 64 :: [] ∧
    (scheduled [.rd 4 32] image).schedule = .rd 4 32 :: [] ∧ (scheduled [.rd 5 32] image).schedule = .rd 5 32 :: [] ∧
    (scheduled [.rd 6 32] image).schedule = .rd 6 32 :: [] ∧ (scheduled [.rd 7 64] image).schedule = .rd 7 64 :: [] ∧
    (scheduled [.rd 8 32] image).schedule = .rd 8 32 :: [] ∧
    (scheduled [.rd 9 64] image).schedule = .rd 9 64 :: [] := by decide

theorem witness_RegisterWriteTakesEffect :
    (scheduled [.wr 0 32 7] image).schedule = .wr 0 32 7 :: [] ∧
    (scheduled [.wr 1 32 7] image).schedule = .wr 1 32 7 :: [] ∧
    (scheduled [.wr 2 32 7] image).schedule = .wr 2 32 7 :: [] ∧
    (scheduled [.wr 3 64 7] image).schedule = .wr 3 64 7 :: [] ∧
    (scheduled [.wr 5 32 7] image).schedule = .wr 5 32 7 :: [] ∧
    (scheduled [.wr 9 64 7] image).schedule = .wr 9 64 7 :: [] := by decide

/-- The first number that does not exist, and the last one that does at the wrong width. -/
theorem witness_UndefinedRegisterAccessRefused :
    (scheduled [.rd 10 32] image).schedule = .rd 10 32 :: [] ∧ 10 ≤ 10 ∧
    (scheduled [.wr 9 32 0] image).schedule = .wr 9 32 0 :: [] ∧ 9 < 10 ∧
    32 ≠ (if 9 = 3 ∨ 9 = 7 ∨ 9 = 9 then 64 else 32) := by decide

/-- No byte; while `BUSY`; while not, at the last address of `IN`; one address further. -/
theorem witness_InputLoad :
    let r := scheduled [.ldin 0 []] (running .planar 1)
    let s := scheduled [.ldin 0 [1]] (running .planar 1)
    let t := scheduled [.ldin (2 ^ 64 - 1) [1]] image
    let u := scheduled [.ldin (2 ^ 64) [1]] image
    r.schedule = .ldin 0 [] :: [] ∧ s.schedule = .ldin 0 [1] :: [] ∧ s.status.state = .busy ∧
      t.schedule = .ldin (2 ^ 64 - 1) [1] :: [] ∧ t.status.state ≠ .busy ∧
      2 ^ 64 - 1 + ([1] : List Byte).length ≤ 2 ^ 64 ∧
      u.schedule = .ldin (2 ^ 64) [1] :: [] ∧ u.status.state ≠ .busy ∧
      2 ^ 64 < 2 ^ 64 + ([1] : List Byte).length := by decide

/-- The last address, and no byte at the address after it. -/
theorem witness_InputReadBack :
    (scheduled [.rdin (2 ^ 64 - 1) 1] image).schedule = .rdin (2 ^ 64 - 1) 1 :: [] ∧ 2 ^ 64 - 1 + 1 ≤ 2 ^ 64 ∧
    (scheduled [.rdin (2 ^ 64) 0] image).schedule = .rdin (2 ^ 64) 0 :: [] ∧ 0 = 0 := by
  decide

/-- `RDOUT` outside `DONE`; in `DONE` one byte too far; in `DONE` exactly the whole output; no byte beyond it. -/
theorem witness_OutputReadOnlyInDone :
    let q := scheduled [.rdout 0 1] (running .planar 3)
    let r := scheduled [.rdout 6 1] (running .nv12 4)
    let s := scheduled [.rdout 0 6] (running .nv12 4)
    let t := scheduled [.rdout 9 0] (running .nv12 4)
    (Inv q.toMachineState ∧ q.schedule = .rdout 0 1 :: [] ∧ q.status.state ≠ .done) ∧
    (Inv r.toMachineState ∧ r.schedule = .rdout 6 1 :: [] ∧ r.status.state = .done ∧
      r.status.outLen.toNat < 6 + 1) ∧
    (Inv s.toMachineState ∧ s.schedule = .rdout 0 6 :: [] ∧ s.status.state = .done ∧
      0 + 6 ≤ s.status.outLen.toNat) ∧
    (Inv t.toMachineState ∧ t.schedule = .rdout 9 0 :: [] ∧ t.status.state = .done ∧ 0 = 0) :=
  ⟨⟨⟨by decide, by decide, by decide, by decide⟩, rfl, by decide⟩,
   ⟨⟨by decide, by decide, by decide, by decide⟩, rfl, by decide, by decide⟩,
   ⟨⟨by decide, by decide, by decide, by decide⟩, rfl, by decide, by decide⟩,
   ⟨⟨by decide, by decide, by decide, by decide⟩, rfl, by decide, rfl⟩⟩

theorem witness_HostNeverWritesOutput :
    (scheduled [.wrout 0 [1]] image).schedule = .wrout 0 [1] :: [] := by decide

theorem witness_ResetEventRestores :
    (scheduled [.reset] (running .planar 1)).schedule = .reset :: [] := by decide

theorem witness_WaitPollsStatus :
    (scheduled [.wait] image).schedule = .wait :: [] ∧ (scheduled [.wait] image).status.state ≠ .busy ∧
    (scheduled [.wait] (running .planar 1)).schedule = .wait :: [] ∧
    (scheduled [.wait] (running .planar 1)).status.state = .busy := by decide

end Sys2Proof.Tests
end

/-! SUPPORT. All that one pixel step can do in any state whatever, running or not (spec/40_operations.md R95): a list of
stores that does not depend on `OUT`, and one of two ends. -/

namespace Sys2Proof.Machine

variable {p : Config.Params}

/-! ## Several stores -/

/-- The memory after several stores, first one first. -/
def Memory.storeAll (m : Memory) : List Host.Cell → Memory
  | [] => m
  | c :: cs => (m.write c.1 c.2).storeAll cs

/-- The canonical form survives any stores. -/
theorem Memory.wf_storeAll (m : Memory) (cs : List Host.Cell) (h : m.wf) : (m.storeAll cs).wf := by
  induction cs generalizing m with
  | nil => exact h
  | cons c cs ih => exact ih _ (Memory.wf_write m c.1 c.2 h)

/-- An address that no store names reads as before. -/
theorem Memory.read_storeAll_of_notMem (m : Memory) (cs : List Host.Cell) (a : Nat) (h : ∀ c ∈ cs, c.1 ≠ a) :
    (m.storeAll cs).read a = m.read a := by
  induction cs generalizing m with
  | nil => rfl
  | cons c cs ih =>
    obtain ⟨hc, hcs⟩ := List.forall_mem_cons.1 h
    rw [Memory.storeAll, ih _ hcs, Memory.read_write, if_neg hc]

/-- The same stores into two memories agree at an address unless both leave its byte alone. -/
theorem Memory.read_storeAll_agree (m m' : Memory) (cs : List Host.Cell) (a : Nat) :
    (m.storeAll cs).read a = (m'.storeAll cs).read a ∨
      (m.storeAll cs).read a = m.read a ∧ (m'.storeAll cs).read a = m'.read a := by
  induction cs generalizing m m' with
  | nil => exact .inr ⟨rfl, rfl⟩
  | cons c cs ih =>
    have hr := ih (m.write c.1 c.2) (m'.write c.1 c.2)
    simp only [Memory.read_write] at hr
    by_cases hc : c.1 = a
    · rw [if_pos hc, if_pos hc] at hr
      exact .inl (hr.elim id fun ⟨h, h'⟩ => h.trans h'.symm)
    · rwa [if_neg hc, if_neg hc] at hr

/-- The datapath does not look at `OUT` and leaves it (R40). -/
theorem transformed_withOut (r g b : Byte) (s : MachineState p) (m : Memory) :
    transformed r g b (s.withOut m) = (transformed r g b s).withOut m := rfl

/-! ## The two ends of a pixel step -/

/-- A pixel step ends in a bounds fault (R158, R159) or behind `ADVANCE` (R96, R97). -/
inductive StepEnd (s : MachineState p) : MachineState p → Prop
  | faulted (f addr pix u) (hf : f = Cause.inOob ∨ f = Cause.outOob) : StepEnd s (raise f addr pix u)
  | landed (dp out c) : StepEnd s (landed s dp out c)

/-- What a pixel step does to `STATE`: nothing, the completion of R97, or a bounds fault. -/
theorem StepEnd.state_cases {s t : MachineState p} (h : StepEnd s t) :
    t.status.state = s.status.state ∨
    t.status.state = .done ∧ t.seq.index = t.lat.n ∨
    t.status.state = .fault ∧ (t.status.cause = .inOob ∨ t.status.cause = .outOob) := by
  cases h with
  | faulted f addr pix u hf => exact .inr (.inr ⟨rfl, hf⟩)
  | landed dp out c =>
    by_cases hn : s.seq.index + 1 = s.lat.n
    · exact .inr (.inl ⟨if_pos hn, hn⟩)
    · exact .inl (if_neg hn)

/-- The addresses a pixel step can store to (R135 to R137). -/
def StoreTarget (s : MachineState p) (a : Nat) : Prop :=
  a = s.seq.ycur.toNat ∨ a = s.seq.ccur.toNat ∨ a = (s.seq.ccur + 1).toNat ∨ a = s.seq.ccur.toNat + s.lat.voff.toNat

/-- Whatever `OUT` holds, a pixel step ends in the same state `u` but for `OUT`, into which it makes the same stores. -/
structure Stores (s u : MachineState p) (cs : List Host.Cell) : Prop where
  ends : StepEnd s u
  targets : ∀ c ∈ cs, StoreTarget s c.1
  pixelStep_withOut : ∀ m : Memory, pixelStep (s.withOut m) = u.withOut (m.storeAll cs)

/-- The step from the state itself, as one case of the step from any `OUT`. -/
theorem Stores.pixelStep_eq {s u : MachineState p} {cs} (h : Stores s u cs) :
    pixelStep s = u.withOut (s.outMem.storeAll cs) := h.pixelStep_withOut s.outMem

/-- The luma store of the current pixel (R135). -/
def lumaCell (s : MachineState p) : Host.Cell := (s.seq.ycur.toNat, byteOf (finalDp s).yq)

/-- The U store of the current pixel, in either layout (R136, R137). -/
def chromaUCell (s : MachineState p) : Host.Cell := (s.seq.ccur.toNat, byteOf (finalDp s).uq)

/-- The V store of the current pixel in planar layout (R136). -/
def planarVCell (s : MachineState p) : Host.Cell := (s.seq.ccur.toNat + s.lat.voff.toNat, byteOf (finalDp s).vq)

/-- The V store of the current pixel in NV12 layout (R137). -/
def nv12VCell (s : MachineState p) : Host.Cell := ((s.seq.ccur + 1).toNat, byteOf (finalDp s).vq)

@[simp] theorem lumaCell_target (s : MachineState p) : StoreTarget s (lumaCell s).1 := .inl rfl

@[simp] theorem chromaUCell_target (s : MachineState p) : StoreTarget s (chromaUCell s).1 := .inr (.inl rfl)

@[simp] theorem planarVCell_target (s : MachineState p) : StoreTarget s (planarVCell s).1 := .inr (.inr (.inr rfl))

@[simp] theorem nv12VCell_target (s : MachineState p) : StoreTarget s (nv12VCell s).1 := .inr (.inr (.inl rfl))

section Chroma

variable {s : MachineState p} (hf : s.seq.index.toNat * s.lat.s.toNat + 2 < s.lat.l.toNat)
  (hy : s.seq.ycur.toNat < s.lat.olen.toNat) (hg : gate p.cphase s.seq.j.toNat (s.seq.index + 1).toNat = true)

include hf hy hg

/-- The stores of a kept pixel in planar layout: luma, U, V, up to the first that does not fit (R136). -/
theorem exists_stores_planar (hm : s.lat.mode = .planar) : ∃ u cs, Stores s u cs := by
  by_cases hc : s.seq.ccur.toNat + s.lat.voff.toNat < s.lat.olen.toNat
  · exact ⟨_, [lumaCell s, chromaUCell s,
        planarVCell s],
      .landed (finalDp s) s.outMem (s.seq.ccur + 1), by simp,
      fun m => pixelStep_planar (s.withOut m) hf hy hg hm hc⟩
  · have hoob (m : Memory) := pixelStep_planar_oob (s.withOut m) hf hy hg hm (Nat.le_of_not_lt hc)
    by_cases hu : s.lat.olen.toNat ≤ s.seq.ccur.toNat
    · exact ⟨_, [lumaCell s],
        .faulted .outOob s.seq.ccur.toNat s.seq.index.toNat (lumaStored s) (.inr rfl), by simp,
        fun m => (hoob m).trans (if_pos hu)⟩
    · exact ⟨_, [lumaCell s, chromaUCell s],
        .faulted .outOob (s.seq.ccur.toNat + s.lat.voff.toNat) s.seq.index.toNat (lumaStored s) (.inr rfl), by simp,
        fun m => (hoob m).trans (if_neg hu)⟩

/-- The stores of a kept pixel in NV12 layout: luma, U, V, up to the first that does not fit (R137). -/
theorem exists_stores_nv12 (hm : s.lat.mode = .nv12) : ∃ u cs, Stores s u cs := by
  by_cases hu : s.lat.olen.toNat ≤ s.seq.ccur.toNat
  · exact ⟨_, [lumaCell s],
      .faulted .outOob s.seq.ccur.toNat s.seq.index.toNat (lumaStored s) (.inr rfl), by simp,
      fun m => (pixelStep_nv12_oob (s.withOut m) hf hy hg hm (.inl hu)).trans (if_pos hu)⟩
  · by_cases hv : s.lat.olen.toNat ≤ (s.seq.ccur + 1).toNat
    · exact ⟨_, [lumaCell s, chromaUCell s],
        .faulted .outOob (s.seq.ccur + 1).toNat s.seq.index.toNat (incCcur (lumaStored s)) (.inr rfl), by simp,
        fun m => (pixelStep_nv12_oob (s.withOut m) hf hy hg hm (.inr hv)).trans (if_neg hu)⟩
    · exact ⟨_, [lumaCell s, chromaUCell s,
          nv12VCell s],
        .landed (finalDp s) s.outMem (s.seq.ccur + 1 + 1), by simp,
        fun m => pixelStep_nv12 (s.withOut m) hf hy hg hm (Nat.lt_of_not_le hu) (Nat.lt_of_not_le hv)⟩

end Chroma

/-- A pixel step in any state, by the micro-operation at which it ends (R95): its stores and its end. -/
theorem exists_stores (s : MachineState p) : ∃ u cs, Stores s u cs := by
  by_cases hf : s.lat.l.toNat ≤ s.seq.index.toNat * s.lat.s.toNat + 2
  · exact ⟨_, [],
      .faulted .inOob (max s.lat.l.toNat (s.seq.index.toNat * s.lat.s.toNat)) s.seq.index.toNat s (.inl rfl),
      by simp, fun m => pixelStep_inOob (s.withOut m) hf⟩
  replace hf := Nat.lt_of_not_le hf
  by_cases hy : s.lat.olen.toNat ≤ s.seq.ycur.toNat
  · exact ⟨_, [],
      .faulted .outOob s.seq.ycur.toNat s.seq.index.toNat
        (transformed (inByte s (s.seq.index.toNat * s.lat.s.toNat)) (inByte s (s.seq.index.toNat * s.lat.s.toNat + 1))
          (inByte s (s.seq.index.toNat * s.lat.s.toNat + 2)) s) (.inr rfl),
      by simp, fun m => by rw [pixelStep_luma_oob (s.withOut m) hf hy, transformed_withOut]; rfl⟩
  replace hy := Nat.lt_of_not_le hy
  cases hg : gate p.cphase s.seq.j.toNat (s.seq.index + 1).toNat with
  | false =>
    exact ⟨_, [lumaCell s], .landed (finalDp s) s.outMem s.seq.ccur, by simp,
      fun m => pixelStep_dropped (s.withOut m) hf hy hg⟩
  | true =>
    cases hm : s.lat.mode with
    | planar => exact exists_stores_planar hf hy hg hm
    | nv12 => exact exists_stores_nv12 hf hy hg hm

/-- A turn of the engine changes `STATE` only while `BUSY`, and then only as R26 lists. -/
theorem engineTurn_state_cases (s : MachineState p) (h : (engineTurn s).status.state ≠ s.status.state) :
    s.status.state = .busy ∧
      ((engineTurn s).status.state = .done ∧ (engineTurn s).seq.index = (engineTurn s).lat.n ∨
       (engineTurn s).status.state = .fault ∧
        ((engineTurn s).status.cause = .inOob ∨ (engineTurn s).status.cause = .outOob)) := by
  by_cases hb : s.status.state = .busy
  · obtain ⟨u, cs, hu⟩ := exists_stores s
    rw [engineTurn, if_pos hb, hu.pixelStep_eq] at h ⊢
    exact ⟨hb, hu.ends.state_cases.resolve_left h⟩
  · rw [engineTurn, if_neg hb] at h
    exact absurd rfl h

/-! ## Settled -/

/-- Settles O33: the frame of the registers is `SameEnv`, that of `OUT` follows from where the stores go. -/
theorem pixelStepFrame : Obligations.PixelStepFrame := by
  intro p s
  obtain ⟨hcfg, hlat, hin, hlen, hsched, hdata, hepoch⟩ := pixelStep_sameEnv s
  refine ⟨hcfg, hlat, hin, hlen, hsched, hdata, hepoch, fun a hy hc hc1 hv => ?_⟩
  obtain ⟨u, cs, hu⟩ := exists_stores s
  rw [hu.pixelStep_eq]
  refine Memory.read_storeAll_of_notMem _ _ _ fun c hmem hca => ?_
  have ht : StoreTarget s a := hca ▸ hu.targets c hmem
  exact ht.elim hy fun ht => ht.elim hc fun ht => ht.elim hc1 hv

/-- Settles O34: the end state and the stores are the same from every `OUT`. -/
theorem outputNeverRead : Obligations.OutputNeverRead := by
  intro p s m
  obtain ⟨u, cs, hu⟩ := exists_stores s
  rw [hu.pixelStep_withOut m, hu.pixelStep_eq]
  exact ⟨rfl, fun a => Memory.read_storeAll_agree m s.outMem cs a⟩

end Sys2Proof.Machine

/-! SUPPORT. The machine's invariant (spec/10_state.md R22, R34 to R37, spec/40_operations.md R97): what a reset, a
command, a host action and a turn of the engine do to its parts. -/

namespace Sys2Proof.Machine

variable {p : Config.Params} {s : MachineState p}

/-! ## The fault record -/

/-- Outside `FAULT` a kept record is a clear one. -/
theorem recordKept_iff_clear (hf : s.status.state ≠ .fault) :
    RecordKept s ↔ s.status.cause = .none ∧ s.status.faddr = 0 ∧ s.status.fpix = 0 := by
  constructor
  · rintro ⟨hcause, hzero, -⟩
    have hc : s.status.cause = .none := by_contra fun hc => hf (hcause.1 hc)
    exact ⟨hc, hzero (by simp [hc]) (by simp [hc])⟩
  · rintro ⟨hc, ha, hp⟩
    simp [RecordKept, hf, hc, ha, hp]

/-- A pixel step that ends without a fault keeps the record. -/
theorem RecordKept.landed (h : RecordKept s) (hb : s.status.state = .busy) (dp out c) :
    RecordKept (landed s dp out c) := by
  have hclear := (recordKept_iff_clear (by simp [hb])).1 h
  refine (recordKept_iff_clear ?_).2 hclear
  simp only [Machine.landed, hb]
  split <;> simp

/-- The address of an input fault is not truncated in `FADDR` (R35, R52). -/
theorem Running.inOob_address_lt (ha : Adequate p) (h : Running s) :
    max s.lat.l.toNat (s.seq.index.toNat * s.lat.s.toNat) < 2 ^ p.addrBits := by
  obtain ⟨⟨_, hmax, _⟩, _, _, _, _, hn⟩ := h
  have hprod : s.seq.index.toNat * s.lat.s.toNat ≤ p.maxPixels * 2 ^ p.bppBits :=
    Nat.mul_le_mul (by omega) s.lat.s.isLt.le
  have hinputs := ha.inputs
  exact max_lt s.lat.l.isLt (by omega)

theorem Running.recordKept_pixelStep (ha : Adequate p) (h : Running s) (hb : s.status.state = .busy)
    (hr : RecordKept s) : RecordKept (pixelStep s) := by
  have ⟨_, ⟨_, _, _, hlen, _⟩, _⟩ := h
  have haddr := h.inOob_address_lt ha
  have ho := h.pixelOutcome ha
  generalize pixelStep s = t at ho ⊢
  cases ho with
  | inputFault _ =>
    simp only [RecordKept, raise_status, raise_lat, toNat_ofNat_of_lt _ haddr]
    simp
  | dropped _ _ => exact hr.landed hb _ _ _
  | keptPlanar _ _ _ _ => exact hr.landed hb _ _ _
  | keptNv12 _ _ _ _ => exact hr.landed hb _ _ _
  | outputFault u _ _ _ _ hst _ => simp [RecordKept, hst, hlen]

/-! ## The memories -/

/-- The stores of a pixel step keep the canonical form, and `IN` is not stored to (R39). -/
theorem MemoriesKept.pixelStep (h : MemoriesKept s) : MemoriesKept (pixelStep s) := by
  obtain ⟨hin, hzero, hout⟩ := h
  obtain ⟨u, cs, hu⟩ := exists_stores s
  obtain ⟨-, -, hsame, -⟩ := pixelStep_sameEnv s
  refine ⟨hsame ▸ hin, hsame ▸ hzero, ?_⟩
  rw [hu.pixelStep_eq]
  exact Memory.wf_storeAll _ cs hout

/-! ## The invariant under each kind of step -/

theorem inv_reset (p : Config.Params) : Inv (MachineState.reset p) :=
  ⟨⟨Memory.wf_blank, rfl, Memory.wf_blank⟩, (recordKept_iff_clear (by simp [MachineState.reset])).2 ⟨rfl, rfl, rfl⟩,
    fun h => by simp [MachineState.reset] at h, fun h => by simp [MachineState.reset] at h⟩

/-- In `FAULT` the invariant is that of the memories and of the record. -/
theorem inv_of_fault {t : MachineState p} (hf : t.status.state = .fault) (hm : MemoriesKept t) (hr : RecordKept t) :
    Inv t := ⟨hm, hr, fun h => by simp [hf] at h, fun h => by simp [hf] at h⟩

/-- A turn of the engine, whether or not it runs a pixel step. -/
theorem Inv.engineTurn (ha : Adequate p) (h : Inv s) : Inv (engineTurn s) := by
  unfold Machine.engineTurn
  split
  · rename_i hb
    obtain ⟨hm, hr, hrun, -⟩ := h
    have hm' := hm.pixelStep
    have hr' := (hrun hb).recordKept_pixelStep ha hb hr
    cases (hrun hb).turnOutcome ha hb with
    | running hs hrun' => exact ⟨hm', hr', fun _ => hrun', fun hd => by simp [hs] at hd⟩
    | finished hs hfin => exact ⟨hm', hr', fun hb => by simp [hs] at hb, fun _ => hfin⟩
    | fault hs _ => exact inv_of_fault hs hm' hr'
  · exact h

/-- `Start`, for every geometry: refused, empty, or with pixels to convert (R91, R92, R160). -/
theorem Inv.start (ha : Adequate p) (layout : Layout) (h : Inv s) : Inv (start layout s) := by
  obtain ⟨⟨hin, hzero, hout⟩, -, -, -⟩ := h
  by_cases hgeom : p.maxPixels < s.cfg.width.toNat * s.cfg.height.toNat
  · rw [start_geom ha layout s hgeom]
    exact inv_of_fault rfl ⟨hin, hzero, hout⟩ (by simp [RecordKept])
  have hn := Nat.le_of_not_lt hgeom
  have hst := start_started ha layout s hn
  generalize Machine.start layout s = t at hst ⊢
  have hm : MemoriesKept t := by
    rw [MemoriesKept, hst.inMem, hst.outMem]
    exact ⟨hin, hzero, Memory.wf_zeroFill _ _ hout⟩
  have hr (hf : t.status.state ≠ .fault) : RecordKept t :=
    (recordKept_iff_clear hf).2 (by rw [hst.status]; exact ⟨rfl, rfl, rfl⟩)
  by_cases h0 : s.cfg.width.toNat * s.cfg.height.toNat = 0
  · have hd : t.status.state = .done := by rw [hst.status]; exact if_pos h0
    exact ⟨hm, hr (by simp [hd]), fun hb => by simp [hd] at hb, fun _ => hst.finished hn h0⟩
  · have hb : t.status.state = .busy := by rw [hst.status]; exact if_neg h0
    exact ⟨hm, hr (by simp [hb]), fun _ => hst.running hn (Nat.pos_of_ne_zero h0), fun hd => by simp [hb] at hd⟩

/-- The invariant does not mention the configuration registers, the events to come or the host's last answer. -/
theorem Inv.set_host (h : Inv s) (cfg : HostRegs p) (sched : List Event) (data : HostData) :
    Inv { s with cfg := cfg, schedule := sched, hostData := data } := h

/-- A load of `IN` keeps its canonical form. -/
theorem Inv.load (h : Inv s) (addr : Nat) (values : List Byte) : Inv (s.withIn (s.inMem.writeBytes addr values)) := by
  obtain ⟨⟨hin, hzero, hout⟩, hrest⟩ := h
  exact ⟨⟨Memory.wf_writeBytes _ _ _ hin, by simpa using hzero, hout⟩, hrest⟩

/-- Whatever a step does, it keeps the invariant. -/
theorem StepOutcome.inv {t : MachineState p} (ha : Adequate p) (ho : StepOutcome s t) (h : Inv s) : Inv t := by
  have hrest (rest : List Event) : Inv (s.withSchedule rest) := h.set_host s.cfg rest s.hostData
  cases ho with
  | engine rest _ => exact (hrest rest).engineTurn ha
  | reset rest _ => exact inv_reset p
  | configured rest cfg _ => exact h.set_host cfg rest s.hostData
  | ignored rest _ => exact hrest rest
  | started c rest layout _ _ _ => exact (hrest rest).start ha layout
  | illegal c rest e _ _ _ => exact inv_of_fault rfl (hrest rest).1 (by simp [RecordKept])
  | answered rest data _ => exact h.set_host s.cfg rest data
  | loaded addr values rest _ _ => exact (hrest rest).load addr values
  | emptyLoad addr rest _ => exact hrest rest
  | waiting rest data _ _ => exact Inv.engineTurn ha (h.set_host s.cfg s.schedule data)

/-! ## Settled -/

/-- Settles O37, by cases over what a step can do. -/
theorem invariantKept : Obligations.InvariantKept :=
  ⟨fun _ _ _ ha h hs => (nextEvent_outcome hs).inv ha h, fun _ _ h hs => (step_outcome hs).inv adequate_hardware h⟩

/-- Settles O38: both memories are blank, and nothing is claimed in `IDLE` but a record that names no cause. -/
theorem invariantAtReset : Obligations.InvariantAtReset := ⟨inv_reset, inv_reset Config.hardware⟩

end Sys2Proof.Machine

/-! SUPPORT. The host's side of one step (spec/10_state.md R26 to R40): what a step can change, and what a whole register
access does. -/

namespace Sys2Proof.Machine

/-! ## What `Start` leaves on this hardware -/

/-- The operation state after `Start`, by the geometry (R91, R92, R160). -/
theorem start_state_cases (layout : Layout) (s : MachineState Config.hardware) :
    1431655765 < s.cfg.width.toNat * s.cfg.height.toNat ∧
      (start layout s).status.state = .fault ∧ (start layout s).status.cause = .geom ∨
    0 < s.cfg.width.toNat * s.cfg.height.toNat ∧ s.cfg.width.toNat * s.cfg.height.toNat ≤ 1431655765 ∧
      (start layout s).status.state = .busy ∨
    s.cfg.width.toNat * s.cfg.height.toNat = 0 ∧ (start layout s).status.state = .done := by
  by_cases hgeom : 1431655765 < s.cfg.width.toNat * s.cfg.height.toNat
  · rw [start_geom adequate_hardware layout s hgeom]
    exact .inl ⟨hgeom, rfl, rfl⟩
  have hn := Nat.le_of_not_lt hgeom
  rw [(start_started adequate_hardware layout s hn).status]
  by_cases h0 : s.cfg.width.toNat * s.cfg.height.toNat = 0
  · exact .inr (.inr ⟨h0, if_pos h0⟩)
  · exact .inr (.inl ⟨Nat.pos_of_ne_zero h0, hn, if_neg h0⟩)

variable {p : Config.Params}

/-- `Start` does not touch `IN`, whatever the geometry (R39). -/
theorem start_inMem (layout : Layout) (s : MachineState p) : (start layout s).inMem = s.inMem := by
  simp only [start]
  split <;> rfl

/-- The word of either conversion command, as R68 lists them. -/
theorem decode_conversion {c : Word32} {layout : Layout}
    (h : decode c = .ok (if layout = Layout.planar then .convertPlanar else .convertNv12)) :
    decode c = .ok .convertPlanar ∨ decode c = .ok .convertNv12 := by
  cases layout with
  | planar => exact .inl h
  | nv12 => exact .inr h

/-- The events at which the engine has its turn. -/
theorem turn_schedule {s : MachineState p} {rest : List Event}
    (h : s.schedule = [] ∧ rest = [] ∨ s.schedule = .engine :: rest) :
    s.schedule = [] ∨ ∃ rest, s.schedule = .engine :: rest ∨ s.schedule = .wait :: rest :=
  h.imp And.left fun h => ⟨rest, .inl h⟩

/-- Settles O40: of all that a step can do, only these outcomes can leave another `STATE`. -/
theorem stateChangesOnlyAsListed : Obligations.StateChangesOnlyAsListed := by
  rintro s ⟨t⟩ hstep hne
  have ho := step_outcome hstep
  generalize s.toMachineState = s at ho hne ⊢
  cases ho with
  | engine rest h =>
    obtain ⟨hb, hend⟩ := engineTurn_state_cases _ hne
    exact .inr (.inr ⟨hb, turn_schedule h, hend⟩)
  | reset rest h => exact .inl ⟨rest, h, rfl⟩
  | configured rest cfg _ => exact absurd rfl hne
  | ignored rest _ => exact absurd rfl hne
  | started c rest layout h hb hd =>
    exact .inr (.inl ⟨hb, c, rest, h, .inr ⟨decode_conversion hd, start_state_cases layout (s.withSchedule rest)⟩⟩)
  | illegal c rest e h hb hd => exact .inr (.inl ⟨hb, c, rest, h, .inl ⟨⟨e, hd⟩, rfl, rfl⟩⟩)
  | answered rest data _ => exact absurd rfl hne
  | loaded addr values rest _ _ => exact absurd rfl hne
  | emptyLoad addr rest _ => exact absurd rfl hne
  | waiting rest data h _ =>
    obtain ⟨hb, hend⟩ := engineTurn_state_cases _ hne
    exact .inr (.inr ⟨hb, .inr ⟨rest, .inr h⟩, hend⟩)

/-- A turn of the engine changes `OUT` only while `BUSY`, and never `IN` or `OUT_LEN` (R37, R39, R97). -/
theorem engineTurn_memories (s : MachineState p) :
    (engineTurn s).inMem = s.inMem ∧ (engineTurn s).status.outLen = s.status.outLen ∧
      ((engineTurn s).outMem ≠ s.outMem → s.status.state = .busy) := by
  obtain ⟨-, -, hin, hlen, -⟩ := engineTurn_sameEnv s
  refine ⟨hin, hlen, fun hout => by_contra fun hb => hout ?_⟩
  rw [engineTurn, if_neg hb]

/-- Settles O41: of all that a step can do, only these outcomes can leave another memory or `OUT_LEN`. -/
theorem memoriesChangeOnlyAsListed : Obligations.MemoriesChangeOnlyAsListed := by
  rintro s ⟨t⟩ hstep
  have ho := step_outcome hstep
  generalize s.toMachineState = s at ho ⊢
  cases ho with
  | engine rest h =>
    obtain ⟨hin, hlen, hout⟩ := engineTurn_memories (s.withSchedule rest)
    exact ⟨absurd hin, fun hne => .inr (.inl ⟨hout hne, turn_schedule h⟩), absurd hlen⟩
  | reset rest h => exact ⟨fun _ => .inr ⟨rest, h⟩, fun _ => .inr (.inr ⟨rest, h⟩), fun _ => .inr ⟨rest, h⟩⟩
  | configured rest cfg _ => exact ⟨absurd rfl, absurd rfl, absurd rfl⟩
  | ignored rest _ => exact ⟨absurd rfl, absurd rfl, absurd rfl⟩
  | started c rest layout h hb hd =>
    have hconv := decode_conversion hd
    exact ⟨absurd (start_inMem layout (s.withSchedule rest)), fun _ => .inl ⟨hb, c, rest, h, hconv⟩,
      fun _ => .inl ⟨hb, c, rest, h, hconv⟩⟩
  | illegal c rest e _ _ _ => exact ⟨absurd rfl, absurd rfl, absurd rfl⟩
  | answered rest data _ => exact ⟨absurd rfl, absurd rfl, absurd rfl⟩
  | loaded addr values rest h hb =>
    refine ⟨fun hne => .inl ⟨addr, values, rest, h, ?_, hb⟩, absurd rfl, absurd rfl⟩
    rintro rfl
    exact hne rfl
  | emptyLoad addr rest _ => exact ⟨absurd rfl, absurd rfl, absurd rfl⟩
  | waiting rest data h _ =>
    obtain ⟨hin, hlen, hout⟩ := engineTurn_memories (s.withHostData data)
    exact ⟨absurd hin, fun hne => .inr (.inl ⟨hout hne, .inr ⟨rest, .inr h⟩⟩), absurd hlen⟩

/-! ## The command port -/

/-- Settles O9, by the rule for a whole-word write to `CMD`. -/
theorem stepRunsDecodedCommand : Obligations.StepRunsDecodedCommand := by
  intro c i rest s hsched hd
  rw [step_writeCmd c rest s hsched, exec_eq, writeCmd, hd]
  rfl

/-- Bits of a table row that decode are a command word that decodes (R81). -/
theorem decode_of_decodeTableWord {nbits w : Nat} {i : Instr} (h : decodeTableWord nbits w = some i) :
    decode (BitVec.ofNat 32 (tableWord nbits w)) = .ok i := by
  unfold decodeTableWord at h
  split at h
  · cases hd : decode (BitVec.ofNat 32 (tableWord nbits w)) with
    | error e => rw [hd] at h; cases h
    | ok j => rw [hd] at h; cases h; rfl
  · cases h

/-- Settles O10: the placed word is the next event, and taking it off gives the state itself back. -/
theorem placedWordRunsNext : Obligations.PlacedWordRunsNext := fun s nbits w i h =>
  stepRunsDecodedCommand _ i s.schedule (s.withFetchWord nbits w) rfl (decode_of_decodeTableWord h)

/-! ## Whole register accesses -/

/-- A read of a whole register answers its value and does nothing else (R27). -/
theorem step_read (num : Nat) (r : Reg) (hr : Reg.ofNum num = some r) (rest : List Event) (s : State)
    (h : s.schedule = .rd num (r.bits Config.hardware) :: rest) :
    step s = .next { s with schedule := rest, hostData := readReg s.toMachineState r } := by
  have hread (t : MachineState Config.hardware) :
      hostRead num (r.bits Config.hardware) t = .next (t.withHostData (readReg t r)) := by
    rw [hostRead, hr]
    exact if_pos rfl
  rw [step, nextEvent, h]
  show onHardware (hostRead _ _ _) = _
  rw [hread]
  cases r <;> rfl

/-- A write of a whole register does what `writeReg` says (R27). -/
theorem step_write (num : Nat) (r : Reg) (hr : Reg.ofNum num = some r) (v : BitVec (r.bits Config.hardware))
    (rest : List Event) (s : State) (h : s.schedule = .wr num (r.bits Config.hardware) v :: rest) :
    step s = onHardware (writeReg r v (s.withSchedule rest)) := by
  have hwrite (t : MachineState Config.hardware) : hostWrite num (r.bits Config.hardware) v t = writeReg r v t := by
    rw [hostWrite, hr]
    simp
  rw [step, nextEvent, h]
  show onHardware (hostWrite _ _ _ _) = _
  rw [hwrite]

/-- `STATUS` as a number (R71). -/
theorem statusWord_eq (x : OpState) :
    statusWord x = match x with | .idle => 0 | .busy => 1 | .done => 2 | .fault => 3 := by
  cases x <;> decide

/-- `CAUSE` as a number (R72). -/
theorem causeWord_eq (x : Cause) :
    causeWord x = match x with | .none => 0 | .inOob => 1 | .outOob => 2 | .geom => 3 | .illegalCmd => 4 := by
  cases x <;> decide

/-- Settles O51, register by register. -/
theorem registerReadReturnsValue : Obligations.RegisterReadReturnsValue := by
  intro rest s
  refine ⟨step_read 0 .width rfl rest s, step_read 1 .height rfl rest s, step_read 2 .bpp rfl rest s,
    step_read 3 .inLen rfl rest s, step_read 4 .cmd rfl rest s, fun h => ?_, fun h => ?_,
    step_read 7 .faddr rfl rest s, step_read 8 .fpix rfl rest s, step_read 9 .outLen rfl rest s⟩
  · have hread := step_read 5 .status rfl rest s h
    rw [readReg, statusWord_eq] at hread
    exact hread
  · have hread := step_read 6 .cause rfl rest s h
    rw [readReg, causeWord_eq] at hread
    exact hread

/-- Settles O52, register by register. -/
theorem registerWriteTakesEffect : Obligations.RegisterWriteTakesEffect := by
  intro v l rest s
  refine ⟨step_write 0 .width rfl v rest s, step_write 1 .height rfl v rest s, step_write 2 .bpp rfl v rest s,
    step_write 3 .inLen rfl l rest s, ?_⟩
  rintro (h | h | h | h | h)
  · exact step_write 5 .status rfl v rest s h
  · exact step_write 6 .cause rfl v rest s h
  · exact step_write 7 .faddr rfl l rest s h
  · exact step_write 8 .fpix rfl v rest s h
  · exact step_write 9 .outLen rfl l rest s h

/-- Settles O59: the register values of `State.reset`, read one by one. -/
theorem resetRegisterValues : Obligations.ResetRegisterValues :=
  ⟨rfl, rfl, rfl, rfl, rfl, congrArg _ (statusWord_eq .idle), rfl, congrArg _ (causeWord_eq .none), rfl, rfl, rfl, rfl⟩

end Sys2Proof.Machine

/-! SUPPORT. The two memories as the host and the fetch reach them (spec/20_memory.md R52, R54, R63, R64,
spec/70_reset_and_hazards.md R187, R188): what each access does, and which of them can stop the model. -/

namespace Sys2Proof.Machine

variable {p : Config.Params} {s : MachineState p}

/-! ## The step of a scheduled event -/

theorem nextEvent_cons {e : Event} {rest : List Event} (h : s.schedule = e :: rest) :
    nextEvent s = runEvent e (s.withSchedule rest) := by
  rw [nextEvent, h]

theorem step_cons {e : Event} {rest : List Event} {s : State} (h : s.schedule = e :: rest) :
    step s = onHardware (runEvent e (s.withSchedule rest)) := by
  rw [step, nextEvent_cons h]

/-! ## Loads of `IN` -/

theorem hostLoadIn_nil (addr : Nat) (s : MachineState p) : hostLoadIn addr [] s = .next s := if_pos rfl

section Load

variable (s) {addr : Nat} {values : List Byte} (hv : values ≠ [])

include hv

/-- A load of some bytes while `BUSY` (R187). -/
theorem hostLoadIn_busy (hb : s.status.state = .busy) : hostLoadIn addr values s = .refused .inWrittenWhileBusy := by
  rw [hostLoadIn, if_neg hv, if_pos hb]

/-- A load that reaches an address `IN` does not have (R47). -/
theorem hostLoadIn_outside (hb : s.status.state ≠ .busy) (h : p.addressSpace < addr + values.length) :
    hostLoadIn addr values s = .fault (.inAddressOutsideSpace (max addr p.addressSpace)) := by
  rw [hostLoadIn, if_neg hv, if_neg hb, if_pos h]

/-- A load within the addresses of `IN` (R64). -/
theorem hostLoadIn_inside (hb : s.status.state ≠ .busy) (h : addr + values.length ≤ p.addressSpace) :
    hostLoadIn addr values s = .next (s.withIn (s.inMem.writeBytes addr values)) := by
  rw [hostLoadIn, if_neg hv, if_neg hb, if_neg (Nat.not_lt.2 h)]

end Load

/-- The bytes of a load, at their addresses. -/
theorem Memory.read_writeBytes_inside (m : Memory) (addr : Nat) (values : List Byte) {k : Nat}
    (hk : k < values.length) : (m.writeBytes addr values).read (addr + k) = values[k]? := by
  rw [Memory.read_writeBytes, if_pos ⟨Nat.le_add_right addr k, by omega⟩, Nat.add_sub_cancel_left]

/-- The bytes that a load leaves alone. -/
theorem Memory.read_writeBytes_outside (m : Memory) (addr : Nat) (values : List Byte) {a : Nat}
    (ha : a < addr ∨ addr + values.length ≤ a) : (m.writeBytes addr values).read a = m.read a := by
  rw [Memory.read_writeBytes, if_neg (by omega)]

/-! ## Reads of `OUT` by the host -/

section ReadOut

variable (s) {addr count : Nat}

/-- A read outside `DONE` (R188), of any number of bytes. -/
theorem hostReadOut_notDone (hd : s.status.state ≠ .done) :
    hostReadOut addr count s = .refused .outReadOutsideDone := by
  rw [hostReadOut, if_pos hd]

/-- A read of some bytes that reaches `OUT_LEN` (R63, R188). -/
theorem hostReadOut_beyond (hd : s.status.state = .done) (hc : 0 < count)
    (h : s.status.outLen.toNat < addr + count) : hostReadOut addr count s = .refused .outReadBeyondLength := by
  rw [hostReadOut, if_neg (not_not_intro hd), if_pos ⟨hc, h⟩]

/-- A read that stays below `OUT_LEN`, when every byte of it has a value (R63). -/
theorem hostReadOut_below (hd : s.status.state = .done) (h : count = 0 ∨ addr + count ≤ s.status.outLen.toNat)
    {vs : List Byte} (hvs : outBytes s.outMem addr count = .ok vs) :
    hostReadOut addr count s = .next (s.withHostData (.bytes vs)) := by
  rw [hostReadOut, if_neg (not_not_intro hd), if_neg (by omega), hvs]

/-- A read of `OUT` stops the model only in `DONE`, at a byte below `OUT_LEN` that has no value. -/
theorem hostReadOut_fault {f : Fault} (h : hostReadOut addr count s = .fault f) :
    ∃ a, f = .outByteHasNoValue a ∧ s.status.state = .done ∧ a < s.status.outLen.toNat ∧ s.outMem.read a = none := by
  by_cases hd : s.status.state = .done
  · by_cases hlen : 0 < count ∧ s.status.outLen.toNat < addr + count
    · obtain ⟨hc, hl⟩ := hlen
      rw [hostReadOut_beyond s hd hc hl] at h
      cases h
    · rw [hostReadOut, if_neg (not_not_intro hd), if_neg hlen] at h
      cases hb : outBytes s.outMem addr count with
      | ok vs => rw [hb] at h; cases h
      | error a =>
        rw [hb] at h
        cases h
        obtain ⟨hge, hlt, hnone⟩ := outBytes_error _ _ _ _ hb
        exact ⟨a, rfl, hd, by omega, hnone⟩
  · rw [hostReadOut_notDone s hd] at h
    cases h

end ReadOut

/-! ## Where a step can stop with a fault -/

/-- A word written to `CMD` always leaves a next state: its faults are the engine's, taken as R164 says. -/
theorem writeCmd_ne_fault (c : Word32) (s : MachineState p) (f : Fault) : writeCmd c s ≠ .fault f := by
  rcases writeCmd_cases c s with ⟨e, -, h⟩ | ⟨l, -, h⟩ | ⟨l, -, h⟩ <;> simp [h]

/-- A register write is carried out or refused (R27, R190). -/
theorem hostWrite_ne_fault (num width : Nat) (v : BitVec width) (s : MachineState p) (f : Fault) :
    hostWrite num width v s ≠ .fault f := by
  unfold hostWrite
  split
  · exact nofun
  · rename_i r _
    split
    · cases r
      case cmd => exact writeCmd_ne_fault _ s f
      all_goals exact nofun
    · exact nofun

/-- A register read is answered or refused (R27, R190). -/
theorem hostRead_ne_fault (num width : Nat) (s : MachineState p) (f : Fault) : hostRead num width s ≠ .fault f := by
  unfold hostRead
  split
  · exact nofun
  · split <;> exact nofun

/-- A load of `IN` stops the model only at an address that `IN` does not have (R47). -/
theorem hostLoadIn_fault {addr : Nat} {values : List Byte} {f : Fault} (h : hostLoadIn addr values s = .fault f) :
    f = .inAddressOutsideSpace (max addr p.addressSpace) := by
  unfold hostLoadIn at h
  split_ifs at h
  cases h
  rfl

/-- A host read of `IN` stops the model only at an address that `IN` does not have (R47). -/
theorem hostReadIn_fault {addr count : Nat} {f : Fault} (h : hostReadIn addr count s = .fault f) :
    f = .inAddressOutsideSpace (max addr p.addressSpace) := by
  unfold hostReadIn at h
  split_ifs at h
  cases h
  rfl

/-- All the faults of a step: an access to `IN` beyond its addresses, or a read in `DONE` of a byte of `OUT` that lies
below `OUT_LEN` and has no value. -/
theorem nextEvent_fault {f : Fault} (h : nextEvent s = .fault f) :
    (∃ a, f = .inAddressOutsideSpace a) ∨
    ∃ a, f = .outByteHasNoValue a ∧ s.status.state = .done ∧ a < s.status.outLen.toNat ∧ s.outMem.read a = none := by
  cases hs : s.schedule with
  | nil => rw [nextEvent, hs] at h; cases h
  | cons e rest =>
    rw [nextEvent_cons hs] at h
    cases e with
    | engine => cases h
    | reset => cases h
    | wr num width v => exact absurd h (hostWrite_ne_fault num width v _ f)
    | rd num width => exact absurd h (hostRead_ne_fault num width _ f)
    | ldin addr values => exact .inl ⟨_, hostLoadIn_fault h⟩
    | rdin addr count => exact .inl ⟨_, hostReadIn_fault h⟩
    | rdout addr count => exact .inr (hostReadOut_fault (s.withSchedule rest) h)
    | wrout addr values => cases h
    | wait => cases h

/-! ## The bytes below `OUT_LEN` in `DONE` -/

/-- In `DONE` the zero-fill of `Start` reached every byte below `OUT_LEN` (R54), so each has a value. -/
theorem Inv.outByte_ne_none (h : Inv s) (hd : s.status.state = .done) {a : Nat} (ha : a < s.status.outLen.toNat) :
    s.outMem.read a ≠ none := by
  obtain ⟨-, -, -, hdone⟩ := h
  obtain ⟨-, ⟨-, -, -, hlen, hzeroed⟩, -, -⟩ := hdone hd
  rw [hlen] at ha
  obtain ⟨v, hv⟩ := s.outMem.read_of_lt_zeroed a (Nat.lt_of_lt_of_le ha hzeroed)
  simp [hv]

/-- In `DONE` the bytes of a read that stays below `OUT_LEN` can all be answered (R63). -/
theorem Inv.outBytes_eq_ok (h : Inv s) (hd : s.status.state = .done) {addr count : Nat}
    (hlen : count = 0 ∨ addr + count ≤ s.status.outLen.toNat) : ∃ vs, outBytes s.outMem addr count = .ok vs := by
  cases hb : outBytes s.outMem addr count with
  | ok vs => exact ⟨vs, rfl⟩
  | error a =>
    obtain ⟨hge, hlt, hnone⟩ := outBytes_error _ _ _ _ hb
    exact absurd hnone (h.outByte_ne_none hd (by omega))

/-- A state that meets the invariant never stops for want of a byte of `OUT`: the faults left are those of `IN`. -/
theorem Inv.nextEvent_ne_outByteHasNoValue (h : Inv s) (a : Nat) : nextEvent s ≠ .fault (.outByteHasNoValue a) := by
  intro hf
  obtain ⟨b, hb⟩ | ⟨b, -, hd, hlt, hnone⟩ := nextEvent_fault hf
  · cases hb
  · exact h.outByte_ne_none hd hlt hnone

/-! ## Settled -/

/-- Settles O39: the byte that such a fault reports would lie below the zero-fill. -/
theorem outputBytesHaveValues : Obligations.OutputBytesHaveValues :=
  ⟨fun _ _ a h => h.nextEvent_ne_outByteHasNoValue a,
    fun _ a h hf => h.nextEvent_ne_outByteHasNoValue a ((onHardware_eq_fault _ _).1 hf)⟩

/-- Settles O13: the first of the three addresses at or beyond `L` is the larger of `L` and `n*S`. -/
theorem fetchOutOfBoundsFaults : Obligations.FetchOutOfBoundsFaults := by
  intro p n s h
  refine ⟨max s.lat.l.toNat (n * s.lat.s.toNat), by omega, Nat.le_max_left _ _, fun b hge hlt => by omega, ?_⟩
  exact fetch_oob n s h

/-- Settles O54, by the four rules of a load. -/
theorem inputLoad : Obligations.InputLoad := by
  intro addr values rest s hsched
  have hstep : step s = onHardware (hostLoadIn addr values (s.withSchedule rest)) := step_cons hsched
  refine ⟨fun hv => ?_, fun hv hb => ?_, fun hv hb hin => ?_, fun hv hb hout => ?_⟩
  · subst hv
    exact hstep.trans (congrArg onHardware (hostLoadIn_nil addr (s.withSchedule rest)))
  · exact hstep.trans (congrArg onHardware (hostLoadIn_busy (s.withSchedule rest) hv hb))
  · refine ⟨s.inMem.writeBytes addr values, ?_, fun k => Memory.read_writeBytes_inside _ _ _,
      fun a => Memory.read_writeBytes_outside _ _ _⟩
    exact hstep.trans (congrArg onHardware (hostLoadIn_inside (s.withSchedule rest) hv hb hin))
  · exact hstep.trans (congrArg onHardware (hostLoadIn_outside (s.withSchedule rest) hv hb hout))

/-- Settles O56, by the three rules of a read of `OUT`; the invariant gives every byte of an allowed read its value. -/
theorem outputReadOnlyInDone : Obligations.OutputReadOnlyInDone := by
  intro addr count rest s hinv hsched
  have hstep : step s = onHardware (hostReadOut addr count (s.withSchedule rest)) := step_cons hsched
  refine ⟨fun hd => ?_, fun hd hc hlen => ?_, fun hd hlen => ?_⟩
  · exact hstep.trans (congrArg onHardware (hostReadOut_notDone (s.withSchedule rest) hd))
  · exact hstep.trans (congrArg onHardware (hostReadOut_beyond (s.withSchedule rest) hd hc hlen))
  · obtain ⟨bytes, hbytes⟩ := hinv.outBytes_eq_ok hd hlen
    refine ⟨bytes, ?_, (outBytes_ok _ _ _ _).1 hbytes⟩
    exact hstep.trans (congrArg onHardware (hostReadOut_below (s.withSchedule rest) hd hlen hbytes))

end Sys2Proof.Machine

/-! SUPPORT. Decoding by the three fields of a command word (spec/30_encoding.md R67 to R70). -/

namespace Sys2Proof

/-! ## Decoding by fields -/

/-- A word with a reserved bit set is rejected by its reserved field (R69). -/
theorem decode_reserved {c : Word32} (h : rsvdField c ≠ 0) : decode c = .error (.reservedBitsSet (rsvdField c)) :=
  if_pos h

/-- Without `START` a legal word is `NOP` (R70). -/
theorem decode_idle {c : Word32} (hr : rsvdField c = 0) (hs : startField c = 0) :
    decode c = .ok (.nop (layoutField c)) := by
  rw [decode, if_neg (not_not_intro hr), if_pos hs]

/-- With `START` a legal word is the conversion that its `LAYOUT` names (R68). -/
theorem decode_start {c : Word32} (hr : rsvdField c = 0) (hs : startField c ≠ 0) :
    decode c = .ok (if layoutField c = 0 then .convertPlanar else .convertNv12) := by
  rw [decode, if_neg (not_not_intro hr), if_neg hs]
  split <;> rfl

/-- Every command's word decodes to it, whichever command it is. -/
theorem decode_encode (i : Instr) : decode (encode i) = .ok i := by
  cases i with
  | convertPlanar => exact Laws.RoundTrip.convertPlanar rfl
  | convertNv12 => exact Laws.RoundTrip.convertNv12 rfl
  | nop layout => exact Laws.RoundTrip.nop layout rfl

/-- A word that decodes is put together again from the command: each field is either an operand or fixed by the
condition that selected the command. -/
theorem encode_of_decode {c : Word32} {i : Instr} (h : decode c = .ok i) : encode i = c := by
  by_cases hr : rsvdField c = 0
  · rw [← cmd32_fields c, hr]
    by_cases hs : startField c = 0
    · rw [decode_idle hr hs] at h
      cases h
      rw [hs, encode]
    · have hs1 : startField c = 1 := (bit_cases _).resolve_left hs
      rw [decode_start hr hs] at h
      rw [hs1]
      rcases bit_cases (layoutField c) with hl | hl
      · rw [hl] at h ⊢; cases h; rfl
      · rw [hl] at h ⊢; cases h; rfl
  · rw [decode_reserved hr] at h
    cases h

/-- The words of the table are the encodings of the commands, one each (R67, R68). -/
theorem decode_eq_ok_iff (c : Word32) (i : Instr) : decode c = .ok i ↔ c = encode i :=
  ⟨fun h => (encode_of_decode h).symm, fun h => h ▸ decode_encode i⟩

/-- `NOP` by fields (R70). -/
theorem decode_nop_iff (c : Word32) :
    (∃ layout, decode c = .ok (.nop layout)) ↔ rsvdField c = 0 ∧ startField c = 0 := by
  constructor
  · rintro ⟨layout, h⟩
    rw [decode_eq_ok_iff] at h
    simp [h, encode]
  · rintro ⟨hr, hs⟩
    exact ⟨_, decode_idle hr hs⟩

/-- A word is rejected for its reserved field and for nothing else (R69). -/
theorem decode_error_iff (c : Word32) : (∃ e, decode c = .error e) ↔ rsvdField c ≠ 0 := by
  constructor
  · rintro ⟨e, h⟩ hr
    by_cases hs : startField c = 0
    · rw [decode_idle hr hs] at h; cases h
    · rw [decode_start hr hs] at h; cases h
  · exact fun hr => ⟨_, decode_reserved hr⟩

/-! ## The mask of `NOP` -/

/-- The mask `0xFFFFFFFD` clears `LAYOUT` and keeps the other two fields (R68). -/
theorem and_nopMask (c : Word32) : c &&& 0xFFFFFFFD = cmd32 (rsvdField c) 0 (startField c) := by
  have hr : rsvdField (c &&& 0xFFFFFFFD) = rsvdField c :=
    BitVec.extractLsb'_and.trans (BitVec.and_allOnes (x := rsvdField c))
  have hl : layoutField (c &&& 0xFFFFFFFD) = 0 :=
    BitVec.extractLsb'_and.trans (BitVec.and_zero (x := layoutField c))
  have hs : startField (c &&& 0xFFFFFFFD) = startField c :=
    BitVec.extractLsb'_and.trans (BitVec.and_allOnes (x := startField c))
  rw [← cmd32_fields (c &&& 0xFFFFFFFD), hr, hl, hs]

/-- A command word is determined by its fields and determines them (R67). -/
theorem cmd32_inj {rsvd rsvd' : BitVec 30} {layout layout' start start' : BitVec 1} :
    cmd32 rsvd layout start = cmd32 rsvd' layout' start' ↔ rsvd = rsvd' ∧ layout = layout' ∧ start = start' := by
  constructor
  · intro h
    exact ⟨by simpa using congrArg rsvdField h, by simpa using congrArg layoutField h,
      by simpa using congrArg startField h⟩
  · rintro ⟨rfl, rfl, rfl⟩
    rfl

/-! ## Settled -/

/-- Settles O3: one direction is the round trip of each command, the other puts the word together from its fields. -/
theorem decodeEncodeAgree : Obligations.DecodeEncodeAgree :=
  ⟨fun i _ => decode_encode i, fun _ i h => ⟨by cases i <;> rfl, encode_of_decode h⟩⟩

/-- Settles O2: the words of the two conversions are their encodings; the mask of `NOP` leaves its two fixed fields. -/
theorem decodeFollowsTable : Obligations.DecodeFollowsTable := by
  refine fun c => ⟨decode_eq_ok_iff c .convertPlanar, decode_eq_ok_iff c .convertNv12, ?_, decode_error_iff c⟩
  have hzero : (0 : Word32) = cmd32 0 0 0 := by decide
  rw [decode_nop_iff, and_nopMask, hzero, cmd32_inj]
  simp only [true_and]

/-- Settles O1: the legal words are encodings, the illegal ones have the reserved fields listed. -/
theorem decodeListedWords : Obligations.DecodeListedWords :=
  ⟨decode_encode .convertPlanar, decode_encode .convertNv12, decode_encode (.nop 0), decode_encode (.nop 1),
    decode_reserved (by decide), decode_reserved (by decide), decode_reserved (by decide)⟩

end Sys2Proof

/-! SUPPORT. The machine's run of an operation and the sequential program of R98 (spec/40_operations.md), side by side:
each turn of the engine is one round of the program's loop. -/

namespace Sys2Proof.Machine

variable {p : Config.Params} {s : MachineState p}

/-! ## One round of the program -/

/-- Where the V sample of a kept pixel goes whose U sample goes to `ccur` (R136, R137). -/
def chromaVAddress (mode : Layout) (voff ccur : Nat) : Nat :=
  match mode with
  | .planar => ccur + voff
  | .nv12 => ccur + 1

/-- The colour of pixel `n` as the program of R98 forms it (R113). -/
def Job.colour (job : Job) (inp : Nat → Byte) (n : Nat) : Byte × Byte × Byte :=
  yuv job.kernel (inp (n * job.s)) (inp (n * job.s + 1)) (inp (n * job.s + 2))

section Round

variable (job : Job) (inp : Nat → Byte) (fuel n ycur ccur : Nat) (out : List Byte)

/-- A round whose fetch is out of bounds reports the first address that is (R158). -/
theorem convertLoop_inOob (h : job.l ≤ n * job.s + 2) :
    convertLoop job inp (fuel + 1) n ycur ccur out = .inOob (max job.l (n * job.s)) n := by
  unfold convertLoop
  split_ifs
  · rw [Nat.max_eq_right ‹_›]
  · rw [Nat.max_eq_left (by omega)]
    congr 1; omega
  · rw [Nat.max_eq_left (by omega)]
    congr 1; omega

/-- A round on a pixel that fails the gate stores its luma only (R135). -/
theorem convertLoop_dropped (h : n * job.s + 2 < job.l) (hk : keepsChroma job.phase job.w n = false) :
    convertLoop job inp (fuel + 1) n ycur ccur out =
      convertLoop job inp fuel (n + 1) (ycur + 1) ccur (out.set ycur (job.colour inp n).1) := by
  rw [convertLoop, if_neg (by omega), if_neg (by omega), if_neg (by omega)]
  simp only [hk, Job.colour]
  rfl

section Kept

variable (h : n * job.s + 2 < job.l) (hk : keepsChroma job.phase job.w n = true)

include h hk

/-- A round on a kept pixel, in either layout (R136, R137). -/
theorem convertLoop_kept :
    convertLoop job inp (fuel + 1) n ycur ccur out =
      if job.olen ≤ ccur then .outOob ccur n
      else if job.olen ≤ chromaVAddress job.mode job.voff ccur then .outOob (chromaVAddress job.mode job.voff ccur) n
      else convertLoop job inp fuel (n + 1) (ycur + 1) (ccur + chromaAdvance job.mode)
        (((out.set ycur (job.colour inp n).1).set ccur (job.colour inp n).2.1).set
          (chromaVAddress job.mode job.voff ccur) (job.colour inp n).2.2) := by
  rw [convertLoop, if_neg (by omega), if_neg (by omega), if_neg (by omega)]
  simp only [hk, Job.colour]
  cases job.mode <;> rfl

/-- A round on a kept pixel whose two chroma stores fit. -/
theorem convertLoop_stored (hu : ccur < job.olen) (hv : chromaVAddress job.mode job.voff ccur < job.olen) :
    convertLoop job inp (fuel + 1) n ycur ccur out =
      convertLoop job inp fuel (n + 1) (ycur + 1) (ccur + chromaAdvance job.mode)
        (((out.set ycur (job.colour inp n).1).set ccur (job.colour inp n).2.1).set
          (chromaVAddress job.mode job.voff ccur) (job.colour inp n).2.2) := by
  rw [convertLoop_kept _ _ _ _ _ _ _ h hk, if_neg (Nat.not_le.2 hu), if_neg (Nat.not_le.2 hv)]

/-- A round on a kept pixel whose first store past the end would be at `OLEN` (R159). -/
theorem convertLoop_outOob (hv : job.olen ≤ chromaVAddress job.mode job.voff ccur)
    (hat : ccur = job.olen ∨ ccur < job.olen ∧ chromaVAddress job.mode job.voff ccur = job.olen) :
    convertLoop job inp (fuel + 1) n ycur ccur out = .outOob job.olen n := by
  rw [convertLoop_kept _ _ _ _ _ _ _ h hk]
  rcases hat with hu | ⟨hu, hv'⟩
  · rw [if_pos hu.ge, hu]
  · rw [if_neg (Nat.not_le.2 hu), if_pos hv, hv']

end Kept

end Round

/-! ## A memory and a buffer -/

/-- The first bytes of a memory are those of a buffer. -/
def Memory.Holds (m : Memory) (out : List Byte) : Prop := ∀ a, a < out.length → m.read a = out[a]?

/-- A store within or beyond the buffer is the program's assignment (R53). -/
theorem Memory.Holds.write {m : Memory} {out : List Byte} (h : m.Holds out) (a : Nat) (v : Byte) :
    (m.write a v).Holds (out.set a v) := by
  intro b hb
  rw [List.length_set] at hb
  rw [Memory.read_write, List.getElem?_set]
  split
  · subst a; rw [if_pos hb]
  · exact h b hb

/-- The zero-fill of `Start` is the program's first buffer (R54). -/
theorem Memory.holds_zeroFill (m : Memory) (n : Nat) : (m.zeroFill n).Holds (List.replicate n 0) := by
  intro a ha
  rw [List.length_replicate] at ha
  rw [Memory.read_zeroFill, if_pos ha, List.getElem?_replicate, if_pos ha]

/-- A buffer that a memory holds is what the host reads from it (R63). -/
theorem Memory.Holds.outBytes {m : Memory} {out : List Byte} (h : m.Holds out) :
    outBytes m 0 out.length = .ok out :=
  (outBytes_ok _ _ _ _).2 ⟨rfl, fun a ha => by rw [Nat.zero_add]; exact h a ha⟩

/-! ## A state and the program's loop -/

/-- What the program of R98 holds fixed, from the latched parameters. -/
def jobOf (s : MachineState p) : Job where
  kernel := p.kernel
  phase := p.cphase
  mode := s.lat.mode
  w := s.lat.w.toNat
  s := s.lat.s.toNat
  l := s.lat.l.toNat
  voff := s.lat.voff.toNat
  olen := s.lat.olen.toNat

/-- The program's loop at the pixel where the machine stands, with the bytes of `OUT` so far. -/
def loopAt (s : MachineState p) (out : List Byte) : Conversion :=
  convertLoop (jobOf s) (inByte s) (s.lat.n.toNat - s.seq.index.toNat) s.seq.index.toNat s.seq.index.toNat
    s.seq.ccur.toNat out

/-- A state as the program of R98 describes an end (R97, R164). -/
def EndsAs (t : MachineState p) : Conversion → Prop
  | .done out =>
    t.status.state = .done ∧ t.status.cause = .none ∧ out.length = t.status.outLen.toNat ∧ t.outMem.Holds out
  | .inOob addr pix =>
    t.status.state = .fault ∧ t.status.cause = .inOob ∧ t.status.faddr.toNat = addr ∧ t.status.fpix.toNat = pix
  | .outOob addr pix =>
    t.status.state = .fault ∧ t.status.cause = .outOob ∧ t.status.faddr.toNat = addr ∧ t.status.fpix.toNat = pix

theorem EndsAs.not_busy {r : Conversion} (h : EndsAs s r) : s.status.state ≠ .busy := by
  cases r <;> obtain ⟨hs, -⟩ := h <;> simp [hs]

/-- A running operation whose `OUT` holds the program's buffer. -/
structure InLoop (s : MachineState p) (out : List Byte) : Prop where
  running : Running s
  busy : s.status.state = .busy
  cause : s.status.cause = .none
  length : out.length = s.status.outLen.toNat
  holds : s.outMem.Holds out

/-- The machine has reached the end `r` of the program, or stands in its loop on the way to `r`. -/
inductive HeadsFor (t : MachineState p) (r : Conversion) : Prop
  | ended (h : EndsAs t r)
  | inLoop (out : List Byte) (h : InLoop t out) (hr : r = loopAt t out)

/-! ## One turn and one round -/

/-- The loop at a running pixel has a round to go. -/
theorem InLoop.loopAt_eq {out : List Byte} (h : InLoop s out) :
    loopAt s out = convertLoop (jobOf s) (inByte s) (s.lat.n.toNat - (s.seq.index.toNat + 1) + 1) s.seq.index.toNat
      s.seq.index.toNat s.seq.ccur.toNat out := by
  obtain ⟨-, -, -, -, -, hn⟩ := h.running
  rw [loopAt]
  congr 1; omega

/-- The pixel number of a fault is not truncated in `FPIX` (R36). -/
theorem Running.fpix_toNat (ha : Adequate p) (h : Running s) :
    (BitVec.ofNat 32 s.seq.index.toNat).toNat = s.seq.index.toNat := by
  obtain ⟨⟨-, hmax, -⟩, -, -, -, -, hn⟩ := h
  have := ha.numbers
  exact toNat_ofNat_of_lt _ (by omega)

/-- A chroma store of a running operation that does not fit is at `OLEN` exactly: the cursors never pass it (R53). -/
theorem Running.chroma_oob_at_olen (h : Running s)
    (hv : s.lat.olen.toNat ≤ chromaVAddress s.lat.mode s.lat.voff.toNat s.seq.ccur.toNat) :
    s.seq.ccur.toNat = s.lat.olen.toNat ∨ s.seq.ccur.toNat < s.lat.olen.toNat ∧
      chromaVAddress s.lat.mode s.lat.voff.toNat s.seq.ccur.toNat = s.lat.olen.toNat := by
  obtain ⟨-, ⟨-, -, hfit, -⟩, -⟩ := h
  unfold StoresFit at hfit
  cases hm : s.lat.mode <;> simp only [hm, chromaVAddress] at hv hfit ⊢ <;> omega

/-- A pixel step that ends without a fault leaves the machine where the program's next round begins, or at its end. -/
theorem InLoop.headsFor_landed (ha : Adequate p) {out out' : List Byte} {dp : Datapath p} {m : Memory}
    {c : BitVec p.addrBits} (h : InLoop s out) (hp : pixelStep s = landed s dp m c) (hm : m.Holds out')
    (hl : out'.length = out.length) :
    HeadsFor (pixelStep s) (convertLoop (jobOf s) (inByte s) (s.lat.n.toNat - (s.seq.index.toNat + 1))
      (s.seq.index.toNat + 1) (s.seq.index.toNat + 1) c.toNat out') := by
  have hcases := h.running.turn_cases ha h.busy
  rw [hp] at hcases ⊢
  have hcause : (landed s dp m c).status.cause = .none := h.cause
  have hlen : out'.length = (landed s dp m c).status.outLen.toNat := hl.trans h.length
  rcases hcases with hf | ⟨hd, hlast⟩ | ⟨hb, hrun, hidx, -, -⟩
  · have hnot : (landed s dp m c).status.state ≠ .fault := by
      simp only [landed, h.busy]
      split <;> simp
    exact absurd hf hnot
  · have hzero : s.lat.n.toNat - (s.seq.index.toNat + 1) = 0 := by omega
    rw [hzero]
    exact .ended ⟨hd, hcause, hlen, hm⟩
  · refine .inLoop out' ⟨hrun, hb, hcause, hlen, hm⟩ ?_
    rw [loopAt, hidx]
    rfl

/-- A kept pixel whose stores fit: the program makes the same three assignments. -/
theorem InLoop.headsFor_kept (ha : Adequate p) {out : List Byte} {dp : Datapath p} {v : Nat} {c : BitVec p.addrBits}
    (h : InLoop s out) (hf : s.seq.index.toNat * s.lat.s.toNat + 2 < s.lat.l.toNat)
    (hk : keepsChroma p.cphase s.lat.w.toNat s.seq.index.toNat = true)
    (hu : s.seq.ccur.toNat < s.lat.olen.toNat) (hv : v < s.lat.olen.toNat)
    (hva : chromaVAddress s.lat.mode s.lat.voff.toNat s.seq.ccur.toNat = v)
    (hc : c.toNat = s.seq.ccur.toNat + chromaAdvance s.lat.mode)
    (hp : pixelStep s = landed s dp (((s.outMem.write s.seq.index.toNat (currentYuv s).1).write
      s.seq.ccur.toNat (currentYuv s).2.1).write v (currentYuv s).2.2) c) :
    HeadsFor (pixelStep s) (loopAt s out) := by
  have hland := h.headsFor_landed ha hp (((h.holds.write _ _).write _ _).write _ _) (by simp)
  subst hva
  rw [hc] at hland
  rw [h.loopAt_eq, convertLoop_stored (jobOf s) (inByte s) _ _ _ _ out hf hk hu hv]
  exact hland

/-- One turn of the engine is one round of the program (R95, R98). -/
theorem InLoop.headsFor_pixelStep (ha : Adequate p) {out : List Byte} (h : InLoop s out) :
    HeadsFor (pixelStep s) (loopAt s out) := by
  have hfpix := h.running.fpix_toNat ha
  have hc1 := toNat_add_one s.seq.ccur (h.running.ccur_lt ha)
  have ho := h.running.pixelOutcome ha
  generalize hp : pixelStep s = t at ho
  cases ho with
  | inputFault hf =>
    rw [h.loopAt_eq, convertLoop_inOob _ _ _ _ _ _ _ hf]
    exact .ended ⟨rfl, rfl, toNat_ofNat_of_lt _ (h.running.inOob_address_lt ha), hfpix⟩
  | dropped hf hk =>
    rw [h.loopAt_eq, convertLoop_dropped _ _ _ _ _ _ _ hf hk, ← hp]
    exact h.headsFor_landed ha hp (h.holds.write _ _) (by simp)
  | keptPlanar hf hk hm hc =>
    rw [← hp]
    exact h.headsFor_kept ha hf hk (by omega) hc (by rw [hm]; rfl) (by rw [hm, hc1]; rfl) hp
  | keptNv12 hf hk hm hc =>
    have hc2 := toNat_add_one (s.seq.ccur + 1) (by have := s.lat.olen.isLt; omega)
    rw [← hp]
    exact h.headsFor_kept ha hf hk (by omega) hc (by rw [hm]; rfl) (by rw [hm, hc2, hc1]; rfl) hp
  | outputFault u hf hk hc _ _ _ =>
    have hv : s.lat.olen.toNat ≤ chromaVAddress s.lat.mode s.lat.voff.toNat s.seq.ccur.toNat := hc
    have hat := h.running.chroma_oob_at_olen hv
    rw [h.loopAt_eq, convertLoop_outOob (jobOf s) (inByte s) _ _ _ _ out hf hk hv hat]
    exact .ended ⟨rfl, rfl, toNat_ofNat_of_lt _ s.lat.olen.isLt, hfpix⟩

/-- From its loop the machine reaches the program's end, if it has a turn for each pixel left (R99). -/
theorem HeadsFor.endsAs_engineTurns (ha : Adequate p) {r : Conversion} (k : Nat) (h : HeadsFor s r)
    (hk : s.lat.n.toNat - s.seq.index.toNat ≤ k) : EndsAs (engineTurns k s) r := by
  induction k generalizing s with
  | zero =>
    cases h with
    | ended h => exact h
    | inLoop out h hr =>
      obtain ⟨-, -, -, -, -, hn⟩ := h.running
      omega
  | succ k ih =>
    cases h with
    | ended h =>
      rw [engineTurns_not_busy _ _ h.not_busy]
      exact h
    | inLoop out h hr =>
      have hnext := h.headsFor_pixelStep ha
      rw [← hr] at hnext
      rw [engineTurns_busy _ _ h.busy]
      cases hnext with
      | ended hend =>
        rw [engineTurns_not_busy _ _ hend.not_busy]
        exact hend
      | inLoop out' h' hr' =>
        refine ih (.inLoop out' h' hr') ?_
        rw [h.running.index_pixelStep ha (by simp [h'.busy]), (pixelStep_sameEnv s).2.1]
        omega

/-! ## The whole operation -/

/-- `Start` on an accepted geometry leaves the machine where the program of R98 begins (R91). -/
theorem start_headsFor (ha : Adequate p) (layout : Layout) (s : MachineState p)
    (hn : s.cfg.width.toNat * s.cfg.height.toNat ≤ p.maxPixels) :
    HeadsFor (start layout s) (convertReference p layout s.cfg.width.toNat s.cfg.height.toNat s.cfg.bpp.toNat
      s.cfg.inLen.toNat (inByte s)) := by
  have hst := start_started ha layout s hn
  generalize start layout s = t at hst ⊢
  have hholds : t.outMem.Holds (List.replicate (outputLength (s.cfg.width.toNat * s.cfg.height.toNat)) 0) := by
    rw [hst.outMem]
    exact Memory.holds_zeroFill _ _
  have hlen : (List.replicate (outputLength (s.cfg.width.toNat * s.cfg.height.toNat)) (0 : Byte)).length =
      t.status.outLen.toNat := by
    rw [List.length_replicate, hst.status, hst.olen, outputLength]
  have hcause : t.status.cause = .none := by rw [hst.status]
  rcases Nat.eq_zero_or_pos (s.cfg.width.toNat * s.cfg.height.toNat) with h0 | h0
  · have hd : t.status.state = .done := by rw [hst.status]; exact if_pos h0
    simp only [convertReference, h0, convertLoop] at hlen hholds ⊢
    exact .ended ⟨hd, hcause, hlen, hholds⟩
  · have hb : t.status.state = .busy := by rw [hst.status]; exact if_neg h0.ne'
    refine .inLoop _ ⟨hst.running hn h0, hb, hcause, hlen, hholds⟩ ?_
    have hin : inByte t = inByte s := by
      funext a
      rw [inByte, inByte, hst.inMem, hst.epoch]
    have hz : (0 : BitVec p.addrBits).toNat = 0 := BitVec.toNat_zero
    simp only [convertReference, loopAt, jobOf, hin, hst.seq, hst.n, hst.mode, hst.w, hst.stride, hst.l, hst.voff,
      hst.olen, hz, Nat.sub_zero]
    rfl

/-- An accepted operation ends as the program of R98 does (R98, R99). -/
theorem engineTurns_start_endsAs (ha : Adequate p) (layout : Layout) (s : MachineState p)
    (hn : s.cfg.width.toNat * s.cfg.height.toNat ≤ p.maxPixels) :
    EndsAs (engineTurns (s.cfg.width.toNat * s.cfg.height.toNat) (start layout s))
      (convertReference p layout s.cfg.width.toNat s.cfg.height.toNat s.cfg.bpp.toNat s.cfg.inLen.toNat
        (inByte s)) := by
  refine (start_headsFor ha layout s hn).endsAs_engineTurns ha _ ?_
  rw [(start_started ha layout s hn).n]
  exact Nat.sub_le _ _

end Sys2Proof.Machine

/-! SUPPORT. The host's actions of a call, one rule each, and the call as a whole (spec/30_encoding.md R83, R84,
spec/70_reset_and_hazards.md R170, R183). -/

namespace Sys2Proof.Machine

variable {p : Config.Params} {s : MachineState p}

/-! ## Polls -/

/-- The host's poll of a machine that is not `BUSY` ends the wait (R170). -/
theorem hostWait_over (hb : s.status.state ≠ .busy) :
    hostWait s = s.withHostData (.reg 32 (statusWord s.status.state)) := if_neg hb

/-- The host's poll of a `BUSY` machine reads 1, keeps the wait first, and gives the engine its turn (R83, R194). -/
theorem hostWait_busy (hb : s.status.state = .busy) :
    hostWait s = pixelStep (s.withHost (.wait :: s.schedule) (.reg 32 1)) := by
  have hread : readReg s .status = .reg 32 1 := by rw [readReg, hb, statusWord_eq]
  have hpoll : hostWait s = engineTurn (s.withHost (.wait :: s.schedule) (readReg s .status)) := if_pos hb
  rw [hpoll, hread]
  exact if_pos hb

/-! ## The actions of a call after its set-up -/

/-- A read of a whole register answers its value, at any parameters (R27). -/
theorem hostRead_whole {num : Nat} {r : Reg} (hr : Reg.ofNum num = some r) (s : MachineState p) :
    hostRead num (r.bits p) s = .next (s.withHostData (readReg s r)) := by
  rw [hostRead, hr]
  exact if_pos rfl

/-- One event of a run that is over in a step. -/
theorem runSchedule_cons {e : Event} {rest : List Event} {t : MachineState p} (turns : Nat)
    (h : s.schedule = e :: rest) (ht : runEvent e (s.withSchedule rest) = .next t) :
    runSchedule (turns + 1) s = runSchedule turns t := by
  rw [← nextEvent_cons h] at ht
  rw [runSchedule, h]
  simp only [ht]

/-- A run with nothing to come is over. -/
theorem runSchedule_nil (turns : Nat) (h : s.schedule = []) : runSchedule turns s = .next s := by
  cases turns with
  | zero => rfl
  | succ turns => rw [runSchedule, h]

/-- A conversion command's write to a machine that is not `BUSY` is `Start` (R88, R89). -/
theorem runEvent_conversion {i : Instr} {layout : Layout}
    (hi : (i = .convertPlanar ∧ layout = .planar) ∨ (i = .convertNv12 ∧ layout = .nv12))
    (hb : s.status.state ≠ .busy) : runEvent (commandEvent i) s = .next (start layout s) := by
  have hcmd : runEvent (commandEvent i) s = writeCmd (encode i) s := by
    have h := nextEvent_writeCmd (encode i) s.schedule (s.withSchedule (commandEvent i :: s.schedule)) rfl
    rwa [nextEvent_cons rfl] at h
  have hconv : convert layout s = start layout s := if_neg hb
  rw [hcmd, writeCmd, decode_encode, ← hconv]
  rcases hi with ⟨rfl, rfl⟩ | ⟨rfl, rfl⟩ <;> rfl

/-- `Start` leaves the events to come. -/
theorem start_schedule (layout : Layout) (s : MachineState p) : (start layout s).schedule = s.schedule := by
  simp only [start]
  split <;> rfl

/-! ## The end of a call -/

/-- An action of the host that is over in a step finds nothing else to come. -/
theorem perform_eq (e : Event) (s : MachineState p) : perform e s = runEvent e (s.withSchedule []) := by
  rw [perform, nextEvent_cons rfl, MachineState.withSchedule_withSchedule]

/-- `RD OUT_LEN` (R37, R84). -/
theorem perform_readOutLen (s : MachineState p) :
    perform (.rd 9 p.addrBits) s = .next (s.withHost [] (.reg p.addrBits s.status.outLen)) := by
  rw [perform_eq]
  exact hostRead_whole (num := 9) (r := .outLen) rfl _

/-- `RDOUT 0, OUT_LEN` in `DONE` answers the buffer that `OUT` holds (R63, R84). -/
theorem perform_readOut {out : List Byte} (hd : s.status.state = .done) (hl : out.length = s.status.outLen.toNat)
    (hout : s.outMem.Holds out) :
    perform (.rdout 0 s.status.outLen.toNat) s = .next (s.withHost [] (.bytes out)) := by
  rw [perform_eq]
  exact hostReadOut_below (s.withSchedule []) hd (.inr (Nat.zero_add _).le) (hl ▸ hout.outBytes)

/-- The host's last steps in `DONE`: `OUT_LEN`, then that many bytes of `OUT` (R84). -/
theorem finishCall_done {out : List Byte} (hs : s.schedule = [])
    (hdata : s.hostData = .reg 32 (statusWord s.status.state)) (hd : s.status.state = .done)
    (hl : out.length = s.status.outLen.toNat) (hout : s.outMem.Holds out) :
    finishCall s = .next (.returned out, s.withHost [] (.bytes out)) := by
  rw [hd] at hdata
  have hread := perform_readOut (s := s.withHost [] (.reg p.addrBits s.status.outLen)) hd hl hout
  rw [finishCall, if_neg (not_not_intro hs), if_pos hdata, perform_readOutLen]
  simp only [andThen, HostData.number, MachineState.withHostData_hostData]
  rw [MachineState.withHostData_status, MachineState.withSchedule_status] at hread
  rw [hread]
  rfl

/-- In `FAULT` the call is over (R84, R183). -/
theorem finishCall_fault (hs : s.schedule = []) (hdata : s.hostData = .reg 32 (statusWord s.status.state))
    (hf : s.status.state = .fault) : finishCall s = .next (.terminated, s) := by
  have hne : s.hostData ≠ .reg 32 (statusWord .done) := by
    rw [hdata, hf]
    decide
  rw [finishCall, if_neg (not_not_intro hs), if_neg hne]

/-! ## The call -/

section Call

variable {i : Instr} {layout : Layout} {pixels : List Byte} {w h : BitVec p.dimBits} {bpp : BitVec p.bppBits}
  {setUp : List Event}

/-- The state in which a call's operation starts (R84). -/
def callStart (layout : Layout) (s : MachineState p) (pixels : List Byte) (w h : BitVec p.dimBits)
    (bpp : BitVec p.bppBits) : MachineState p :=
  start layout ((prepared s pixels w h bpp).withSchedule [.wait, .rd 5 32])

section Ending

variable {turns k : Nat} (hi : (i = .convertPlanar ∧ layout = .planar) ∨ (i = .convertNv12 ∧ layout = .nv12))
  (hp : setUp.Perm (setUpEvents p pixels w h bpp)) (hl : pixels.length < 2 ^ p.addrBits)
  (hb : s.status.state ≠ .busy) (hk : k + 8 ≤ turns)

include hi hp hl hb hk

/-- A call up to `RD STATUS`, on an operation that is over after `k` turns of the engine (R83, R84). -/
theorem hostCall_eq (hend : (engineTurns k (callStart layout s pixels w h bpp)).status.state ≠ .busy) :
    hostCall turns setUp i s = finishCall ((engineTurns k (callStart layout s pixels w h bpp)).withHost []
      (.reg 32 (statusWord (engineTurns k (callStart layout s pixels w h bpp)).status.state))) := by
  obtain ⟨left, rfl⟩ : ∃ left, turns = left + 1 + 5 := ⟨turns - 6, by omega⟩
  have hsetUp := runSchedule_setUp pixels w h bpp setUp [commandEvent i, .wait, .rd 5 32] (left + 1) s hp hl hb
  have hcmd : runSchedule (left + 1)
      ((prepared s pixels w h bpp).withSchedule [commandEvent i, .wait, .rd 5 32]) =
        runSchedule left (callStart layout s pixels w h bpp) :=
    runSchedule_cons left rfl (runEvent_conversion hi (by exact hb))
  obtain ⟨left', hleft, hwait⟩ := runSchedule_wait [.rd 5 32] k left (callStart layout s pixels w h bpp)
    (start_schedule layout _) hend (by omega)
  rw [hostCall, callEvents, hsetUp, hcmd, hwait]
  generalize engineTurns k (callStart layout s pixels w h bpp) = u
  have hread : runEvent (.rd 5 32) (u.withHost [] (.reg 32 (statusWord u.status.state))) =
      .next (u.withHost [] (.reg 32 (statusWord u.status.state))) :=
    hostRead_whole (num := 5) (r := .status) rfl _
  obtain ⟨rest, rfl⟩ : ∃ rest, left' = rest + 1 := ⟨left' - 1, by omega⟩
  rw [runSchedule_cons rest rfl hread, runSchedule_nil rest rfl]
  rfl

/-- A call whose operation faults terminates abnormally (R84, R183). -/
theorem hostCall_of_fault (hf : (engineTurns k (callStart layout s pixels w h bpp)).status.state = .fault) :
    ∃ t, hostCall turns setUp i s = .next (.terminated, t) ∧ t.status.state = .fault := by
  rw [hostCall_eq hi hp hl hb hk (by simp [hf])]
  exact ⟨_, finishCall_fault rfl rfl hf, hf⟩

/-- A call whose operation ends as the program of R98 says: the buffer in `DONE`, no buffer in `FAULT`. -/
theorem hostCall_of_endsAs {r : Conversion} (hend : EndsAs (engineTurns k (callStart layout s pixels w h bpp)) r) :
    (∀ out, r = .done out → ∃ t, hostCall turns setUp i s = .next (.returned out, t) ∧ t.status.state = .done) ∧
    ((∀ out, r ≠ .done out) → ∃ t, hostCall turns setUp i s = .next (.terminated, t) ∧ t.status.state = .fault) := by
  cases r with
  | done out =>
    rw [hostCall_eq hi hp hl hb hk hend.not_busy]
    obtain ⟨hd, -, hlen, hout⟩ := hend
    refine ⟨fun out' he => ?_, fun hne => absurd rfl (hne out)⟩
    cases he
    exact ⟨_, finishCall_done rfl rfl hd hlen hout, hd⟩
  | inOob addr pix =>
    obtain ⟨hf, -⟩ := hend
    exact ⟨fun _ => nofun, fun _ => hostCall_of_fault hi hp hl hb hk hf⟩
  | outOob addr pix =>
    obtain ⟨hf, -⟩ := hend
    exact ⟨fun _ => nofun, fun _ => hostCall_of_fault hi hp hl hb hk hf⟩

end Ending

/-- The operation of a call finds the pixels in `IN` below `IN_LEN` (R64). -/
theorem inByte_prepared (s : MachineState p) {a : Nat} (ha : a < pixels.length) :
    inByte (prepared s pixels w h bpp) a = pixels.getD a 0 := by
  have hread := Memory.read_writeBytes_inside s.inMem 0 pixels ha
  rw [Nat.zero_add] at hread
  rw [inByte]
  show ((s.inMem.writeBytes 0 pixels).read a).getD _ = _
  rw [hread, List.getD, List.getElem?_eq_getElem ha]
  rfl

/-- The operation of a call with an accepted geometry ends as the program of R98 does on the pixels (R84, R98). -/
theorem callStart_endsAs (ha : Adequate p) (layout : Layout) (s : MachineState p)
    (hl : pixels.length < 2 ^ p.addrBits) (hn : w.toNat * h.toNat ≤ p.maxPixels) :
    EndsAs (engineTurns (w.toNat * h.toNat) (callStart layout s pixels w h bpp))
      (convertReference p layout w.toNat h.toNat bpp.toNat pixels.length fun a => pixels.getD a 0) := by
  have hends := engineTurns_start_endsAs ha layout
    ((prepared s pixels w h bpp).withSchedule [.wait, .rd 5 32]) hn
  have hlen : ((prepared s pixels w h bpp).withSchedule [.wait, .rd 5 32]).cfg.inLen.toNat = pixels.length :=
    toNat_ofNat_of_lt _ hl
  rw [hlen] at hends
  have hinput : convertReference p layout w.toNat h.toNat bpp.toNat pixels.length (inByte (prepared s pixels w h bpp)) =
      convertReference p layout w.toNat h.toNat bpp.toNat pixels.length fun a => pixels.getD a 0 :=
    convertLoop_congr _ _ _ (fun a hlt => inByte_prepared s hlt) _ _ _ _ _
  rw [← hinput]
  exact hends

/-- The operation of a call with a geometry beyond `MAX_PIXELS` is over at once (R160). -/
theorem callStart_geom (ha : Adequate p) (layout : Layout) (s : MachineState p)
    (hn : p.maxPixels < w.toNat * h.toNat) : (callStart layout s pixels w h bpp).status.state = .fault := by
  rw [callStart, start_geom ha layout _ hn]

end Call

/-! ## Settled -/

/-- Settles O50: an accepted geometry ends as the program of R98 does, another one is over in `GEOM` without a turn. -/
theorem callReturnsBuffer : Obligations.CallReturnsBuffer := by
  intro p i layout pixels w h bpp setUp turns s ha hi hp hl hb n ending ht
  by_cases hn : n ≤ p.maxPixels
  · obtain ⟨hdone, hfault⟩ := hostCall_of_endsAs hi hp hl hb ht (callStart_endsAs ha layout s hl hn)
    exact ⟨fun out _ => hdone out, fun hne => hfault (hne.resolve_left (Nat.not_lt.2 hn))⟩
  · have hf : (engineTurns 0 (callStart layout s pixels w h bpp)).status.state = .fault :=
      callStart_geom ha layout s (Nat.lt_of_not_le hn)
    exact ⟨fun _ hle => absurd hle hn, fun _ => hostCall_of_fault hi hp hl hb (by omega) hf⟩

/-- Settles O60, by the two rules of a poll. -/
theorem waitPollsStatus : Obligations.WaitPollsStatus := by
  intro rest s hsched
  have hstep : step s = onHardware (.next (hostWait (s.withSchedule rest))) := step_cons hsched
  refine ⟨fun hb => ?_, fun hb => ?_⟩
  · rw [hstep, hostWait_over (by exact hb)]
    rfl
  · rw [hstep, hostWait_busy (by exact hb), MachineState.withSchedule_schedule, MachineState.withHost,
      MachineState.withSchedule_withSchedule, ← hsched, MachineState.withSchedule_self]
    rfl

end Sys2Proof.Machine

/-! SUPPORT. Commands, the pixel step and whole operations (spec/40_operations.md R88 to R100): what a command's step
leaves, where a pixel step stores, when an operation is over, and what its outcome depends on. -/

namespace Sys2Proof.Machine

variable {p : Config.Params} {s t : MachineState p}

/-! ## Writes to `CMD` -/

/-- While `BUSY` a word written to `CMD` does nothing, whichever it is (R93). -/
theorem writeCmd_busy (c : Word32) (hb : s.status.state = .busy) : writeCmd c s = .next s := by
  rcases writeCmd_cases c s with ⟨_, -, h⟩ | ⟨_, -, h⟩ | ⟨_, -, h⟩
  · rw [h, illegalCommand, if_pos hb]
  · exact h
  · rw [h, convert, if_pos hb]

/-- An illegal word written while not `BUSY` takes `ILLEGAL_CMD` (R94). -/
theorem writeCmd_illegal {c : Word32} (hr : rsvdField c ≠ 0) (hb : s.status.state ≠ .busy) :
    writeCmd c s = .next (raise .illegalCmd 0 0 s) := by
  rw [writeCmd, decode_reserved hr]
  simp only [illegalCommand, if_neg hb]

/-- Settles O7, by the rule for any word in `BUSY`. -/
theorem commandWriteIgnoredWhileBusy : Obligations.CommandWriteIgnoredWhileBusy := by
  intro c rest s hb hsched
  rw [step_writeCmd c rest s hsched, writeCmd_busy c (by exact hb)]
  rfl

/-- Settles O8, by the rules for an illegal word and for any word in `BUSY`. -/
theorem illegalWordFaults : Obligations.IllegalWordFaults := by
  refine fun c rest s hr hsched => ⟨fun hb => ?_, fun hb => commandWriteIgnoredWhileBusy c rest s hb hsched⟩
  rw [step_writeCmd c rest s hsched, writeCmd_illegal hr (by exact hb)]
  rfl

/-- Settles O6: the words are those of the table, and the meaning of `NOP` is the identity. -/
theorem nopChangesNothing : Obligations.NopChangesNothing := by
  obtain ⟨-, -, hzero, htwo, -⟩ := decodeListedWords
  exact ⟨hzero, htwo, fun layout s => exec_eq (.nop layout) s⟩

/-! ## `Start` by a command -/

/-- A conversion command that is not ignored answers the state that `Start` leaves (R88, R89). -/
theorem exec_conversion {i : Instr} {layout : Layout} {s : State}
    (hi : (i = .convertPlanar ∧ layout = .planar) ∨ (i = .convertNv12 ∧ layout = .nv12))
    (hb : s.status.state ≠ .busy) : exec i s = .next { toMachineState := start layout s.toMachineState } := by
  have hconv : convert layout s.toMachineState = start layout s.toMachineState := if_neg hb
  rw [exec_eq, ← hconv]
  rcases hi with ⟨rfl, rfl⟩ | ⟨rfl, rfl⟩ <;> rfl

/-- The parameters that an accepted `Start` latches, none of them truncated (R23, R24, R91). -/
theorem start_lat (ha : Adequate p) (layout : Layout) (s : MachineState p)
    (hn : s.cfg.width.toNat * s.cfg.height.toNat ≤ p.maxPixels) :
    (start layout s).lat =
      { w := s.cfg.width, h := s.cfg.height, s := s.cfg.bpp, l := s.cfg.inLen, mode := layout
        n := BitVec.ofNat p.addrBits (s.cfg.width.toNat * s.cfg.height.toNat)
        cps := BitVec.ofNat p.addrBits (s.cfg.width.toNat * s.cfg.height.toNat / 4)
        voff := BitVec.ofNat p.addrBits (vOffset p.voffMode (s.cfg.width.toNat * s.cfg.height.toNat / 4))
        olen := BitVec.ofNat p.addrBits (3 * (s.cfg.width.toNat * s.cfg.height.toNat) / 2) } := by
  rw [start_accepted ha layout s hn]
  show (latchSizes (latch layout s)).lat = _
  simp only [latchSizes, MachineState.withLat_lat, latch_n ha]
  rfl

/-- Settles O4: what `Start` leaves on an accepted geometry and on one beyond `MAX_PIXELS`. -/
theorem convertStartsOperation : Obligations.ConvertStartsOperation := by
  intro i layout s hi hb n
  refine ⟨_, exec_conversion hi hb, ?_⟩
  by_cases hgeom : 1431655765 < n
  · rw [start_geom adequate_hardware layout s.toMachineState hgeom]
    exact ⟨rfl, rfl, rfl, rfl, rfl, rfl, fun hle => absurd hgeom (Nat.not_lt.2 hle),
      fun _ => ⟨rfl, rfl, rfl, rfl⟩⟩
  · have hn := Nat.le_of_not_lt hgeom
    have hlat := start_lat adequate_hardware layout s.toMachineState hn
    have hst := start_started adequate_hardware layout s.toMachineState hn
    refine ⟨hst.cfg, hst.dp, hst.inMem, hst.schedule, hst.hostData, hst.epoch, fun _ => ?_,
      fun hlt => absurd hlt hgeom⟩
    refine ⟨hlat, ?_, ?_, fun a => ?_⟩
    · rw [hst.seq, hlat]
    · rw [hst.status, hlat]
    · rw [hst.outMem, Memory.read_zeroFill]

/-- Settles O5, the accepted case of O4 on no pixel. -/
theorem degenerateGeometryCompletes : Obligations.DegenerateGeometryCompletes := by
  intro i s hi hb hdim
  obtain ⟨layout, hil⟩ : ∃ layout : Layout,
      (i = .convertPlanar ∧ layout = .planar) ∨ (i = .convertNv12 ∧ layout = .nv12) :=
    hi.elim (fun h => ⟨.planar, .inl ⟨h, rfl⟩⟩) fun h => ⟨.nv12, .inr ⟨h, rfl⟩⟩
  have hn : s.cfg.width.toNat * s.cfg.height.toNat = 0 := by
    rcases hdim with h | h <;> simp [h]
  obtain ⟨t, hexec, -, -, hin, -, -, -, hacc, -⟩ := convertStartsOperation i layout s hil hb
  rw [hn] at hacc
  obtain ⟨hlat, -, hstatus, hout⟩ := hacc (Nat.zero_le _)
  have hidle : t.status.state ≠ .busy := by simp [hstatus]
  exact ⟨t, hexec, hstatus, congrArg Latched.n hlat, congrArg Latched.olen hlat, if_neg hidle, hin, hout⟩

/-! ## The engine's turn and `ADVANCE` -/

/-- Settles O11: both schedules give the engine its turn. -/
theorem engineMovesOnlyWhileBusy : Obligations.EngineMovesOnlyWhileBusy := by
  intro s rest hsched t
  have hturn : step s = .next { toMachineState := engineTurn t } := by
    rcases hsched with ⟨hnil, rfl⟩ | hcons
    · have ht : t = s.toMachineState := by rw [← MachineState.withSchedule_self s.toMachineState, hnil]
      rw [step, nextEvent, hnil, ht]
      rfl
    · exact step_cons hcons
  exact hturn

/-- Settles O29, by the four combinations of the last column and the last pixel. -/
theorem advanceMovesRowMajor : Obligations.AdvanceMovesRowMajor := by
  intro p s
  rw [advance_eq]
  split_ifs <;> rfl

/-! ## The pixel step in bounds -/

/-- `INDEX` after a pixel step reaches `N` as a number exactly when it does as a word (R97). -/
theorem Running.index_succ_eq_n_iff (h : Running s) :
    s.seq.index + 1 = s.lat.n ↔ s.seq.index.toNat + 1 = s.lat.n.toNat := by
  obtain ⟨-, -, -, -, -, hn⟩ := h
  have hlt := s.lat.n.isLt
  rw [← BitVec.toNat_inj, toNat_add_one _ (by omega)]

/-- The column and the row after a pixel step are those of the next pixel number (R22, R96). -/
theorem Running.nextSeq_div_mod (h : Running s) (c : BitVec p.addrBits) :
    (nextSeq s c).j.toNat = (s.seq.index.toNat + 1) / s.lat.w.toNat ∧
      (nextSeq s c).i.toNat = (s.seq.index.toNat + 1) % s.lat.w.toNat := by
  obtain ⟨hidx, -, hpos, hlt⟩ := nextSeq_position h c
  have hw : 0 < s.lat.w.toNat := by omega
  rw [← hidx, hpos, Nat.add_comm, Nat.add_mul_div_right _ _ hw, Nat.add_mul_mod_self_right, Nat.div_eq_of_lt hlt,
    Nat.mod_eq_of_lt hlt, Nat.zero_add]
  exact ⟨rfl, rfl⟩

/-- What `OUT` reads as after the stores of the current pixel, the last store to an address winning (R135 to R137). -/
def storedRead (s : MachineState p) (a : Nat) : Option Byte :=
  if keepsChroma p.cphase s.lat.w.toNat s.seq.index.toNat = true ∧
      a = chromaVAddress s.lat.mode s.lat.voff.toNat s.seq.ccur.toNat then some (currentYuv s).2.2
  else if keepsChroma p.cphase s.lat.w.toNat s.seq.index.toNat = true ∧ a = s.seq.ccur.toNat then
    some (currentYuv s).2.1
  else if a = s.seq.index.toNat then some (currentYuv s).1
  else s.outMem.read a

/-- A pixel step of a running operation whose accesses are in bounds, in either layout, kept or dropped: its stores and
its chroma cursor (R95, R135 to R137). -/
theorem Running.pixelStep_inBounds_eq (ha : Adequate p) (h : Running s) (hf : FetchInBounds s s.seq.index.toNat)
    (hv : keepsChroma p.cphase s.lat.w.toNat s.seq.index.toNat = true →
      chromaVAddress s.lat.mode s.lat.voff.toNat s.seq.ccur.toNat < s.lat.olen.toNat) :
    ∃ out c, pixelStep s = landed s (finalDp s) out c ∧ (∀ a, out.read a = storedRead s a) ∧
      c.toNat = s.seq.ccur.toNat +
        if keepsChroma p.cphase s.lat.w.toNat s.seq.index.toNat then chromaAdvance s.lat.mode else 0 := by
  have hc1 := toNat_add_one s.seq.ccur (h.ccur_lt ha)
  have ho := h.pixelOutcome ha
  generalize pixelStep s = t at ho
  cases ho with
  | inputFault hl => exact absurd hf (Nat.not_lt.2 hl)
  | dropped _ hk =>
    refine ⟨_, _, rfl, fun a => ?_, by simp [hk]⟩
    simp [storedRead, hk, Memory.read_write, eq_comm (a := a)]
  | keptPlanar _ hk hm _ =>
    refine ⟨_, _, rfl, fun a => ?_, by rw [hc1, hk, hm]; rfl⟩
    simp [storedRead, hk, hm, chromaVAddress, Memory.read_write, eq_comm (a := a)]
  | keptNv12 _ hk hm hc =>
    have hc2 := toNat_add_one (s.seq.ccur + 1) (by have := s.lat.olen.isLt; omega)
    refine ⟨_, _, rfl, fun a => ?_, by rw [hc2, hc1, hk, hm]; rfl⟩
    simp [storedRead, hk, hm, chromaVAddress, Memory.read_write, eq_comm (a := a)]
  | outputFault u _ hk hc _ _ _ =>
    exact absurd (hv hk) (Nat.not_lt.2 hc)

/-- Settles O30: such a step lands, and the rest is what the landed state holds. -/
theorem pixelStepCompletes : Obligations.PixelStepCompletes := by
  intro p s ha h hb hf n c kept u v hfit
  have hv : chromaVAddress s.lat.mode s.lat.voff.toNat s.seq.ccur.toNat = v := by
    cases hm : s.lat.mode <;> simp [v, u, hm, chromaVAddress]
  obtain ⟨out, cur, hstep, hout, hcur⟩ := h.pixelStep_inBounds_eq ha hf fun hk => hv ▸ hfit hk
  obtain ⟨hidx, hycur, -, -⟩ := nextSeq_position h cur
  obtain ⟨hj, hi⟩ := h.nextSeq_div_mod cur
  refine ⟨_, hstep, rfl, rfl, rfl, rfl, rfl, rfl, ?_, hidx, hycur, hcur, hj, hi, finalDp_bytes ha s, h.keeps_eq,
    fun a => ?_⟩
  · simp only [landed, h.index_succ_eq_n_iff, hb]
    rfl
  · rw [← hv]
    exact hout a

/-! ## How long an operation runs -/

/-- A running operation after `k` turns: in a fault, or still `BUSY` while pixels are left, or `DONE` (R97, R99). -/
theorem Running.engineTurns_cases (ha : Adequate p) (k : Nat) (h : Running s) (hb : s.status.state = .busy) :
    (engineTurns k s).status.state = .fault ∨
    (k < s.lat.n.toNat - s.seq.index.toNat ∧ (engineTurns k s).status.state = .busy) ∨
    (s.lat.n.toNat - s.seq.index.toNat ≤ k ∧ (engineTurns k s).status.state = .done) := by
  induction k generalizing s with
  | zero =>
    obtain ⟨-, -, -, -, -, hn⟩ := h
    exact .inr (.inl ⟨by omega, hb⟩)
  | succ k ih =>
    rw [engineTurns_busy k s hb]
    rcases h.turn_cases ha hb with hf | ⟨hd, hlast⟩ | ⟨hb', h', hidx, hlat, -⟩
    · rw [engineTurns_not_busy k _ (by simp [hf])]
      exact .inl hf
    · rw [engineTurns_not_busy k _ (by simp [hd])]
      exact .inr (.inr ⟨by omega, hd⟩)
    · have hrest := ih h' hb'
      rw [hidx, hlat] at hrest
      exact hrest.imp id (Or.imp (And.imp_left (by omega)) (And.imp_left (by omega)))

/-- Settles O43, by the cases of a run at fewer turns than pixels left and at as many. -/
theorem operationEnds : Obligations.OperationEnds := by
  intro p s ha h hb left
  refine ⟨fun k hk => ?_, ?_⟩
  · rcases h.engineTurns_cases ha k hb with hf | ⟨-, hb'⟩ | ⟨hle, -⟩
    · exact .inr hf
    · exact .inl hb'
    · exact absurd hk (Nat.not_lt.2 hle)
  · rcases h.engineTurns_cases ha left hb with hf | ⟨hlt, -⟩ | ⟨-, hd⟩
    · exact .inr hf
    · exact absurd hlt (Nat.lt_irrefl _)
    · exact .inl hd

/-- Settles O42: the run ends as the program does, and `OUT_LEN` is the `OLEN` that `Start` set. -/
theorem operationMatchesReference : Obligations.OperationMatchesReference := by
  intro p layout s n ha hn t
  have hends : EndsAs t _ := engineTurns_start_endsAs ha layout s hn
  have hst := start_started ha layout s hn
  have hlen : t.status.outLen.toNat = 3 * n / 2 := by
    obtain ⟨-, -, -, hsame, -⟩ := engineTurns_sameEnv n (start layout s)
    rw [hsame, hst.status, hst.olen]
  generalize convertReference p layout _ _ _ _ _ = r at hends ⊢
  cases r with
  | done out =>
    obtain ⟨hd, hcause, hout, hholds⟩ := hends
    rw [hlen] at hout
    exact ⟨hd, hcause, hout, fun a hlt => hholds a (hout ▸ hlt)⟩
  | inOob addr pix => exact hends
  | outOob addr pix => exact hends

/-! ## What an outcome depends on -/

/-- Two states at the same point of the same operation: the same parameters, position, status and bytes of `OUT` below
`OUT_LEN`, whatever else they hold (R100). -/
structure SameRun (s t : MachineState p) : Prop where
  lat : t.lat = s.lat
  seq : t.seq = s.seq
  status : t.status = s.status
  out : ∀ a, a < s.status.outLen.toNat → t.outMem.read a = s.outMem.read a

/-- Two micro-operations that end alike, in states at the same point of the same operation. -/
inductive Micro.SameRun : Micro p → Micro p → Prop
  | cont {s t : MachineState p} (h : Machine.SameRun s t) : Micro.SameRun (.cont s) (.cont t)
  | ended {s t : MachineState p} (h : Machine.SameRun s t) : Micro.SameRun (.ended s) (.ended t)

namespace SameRun

theorem raise (h : SameRun s t) (f addr pix) : SameRun (raise f addr pix s) (raise f addr pix t) :=
  ⟨h.lat, h.seq, by simp [h.status], h.out⟩

theorem write (h : SameRun s t) (a : Nat) (v : Byte) :
    SameRun (s.withOut (s.outMem.write a v)) (t.withOut (t.outMem.write a v)) := by
  refine ⟨h.lat, h.seq, h.status, fun b hb => ?_⟩
  simp only [MachineState.withOut_outMem, Memory.read_write, h.out b hb]

theorem incCcur (h : SameRun s t) : SameRun (incCcur s) (incCcur t) :=
  ⟨h.lat, by simp [Machine.incCcur, h.seq], h.status, h.out⟩

theorem advance (h : SameRun s t) : SameRun (advance s) (advance t) := by
  rw [advance_eq, advance_eq, h.lat, h.seq, h.status]
  exact ⟨rfl, rfl, rfl, h.out⟩

/-- The chroma store, in either layout and with or without a fault (R136 to R138). -/
theorem chromaStore (h : SameRun s t) (hdp : t.dp = s.dp) (n : Nat) :
    Micro.SameRun (chromaStore n s) (chromaStore n t) := by
  unfold Machine.chromaStore
  rw [hdp, h.lat]
  split
  · cases s.lat.mode with
    | planar =>
      rw [cstorePlanar_eq, cstorePlanar_eq, h.lat, h.seq, hdp]
      split_ifs
      · exact .ended (h.raise _ _ _)
      · exact .ended ((h.write _ _).raise _ _ _)
      · exact .cont ((h.write _ _).write _ _).incCcur
    | nv12 =>
      rw [cstoreNv12_eq, cstoreNv12_eq, h.lat, h.seq, hdp]
      split_ifs
      · exact .ended (h.raise _ _ _)
      · exact .ended ((h.write _ _).incCcur.raise _ _ _)
      · exact .cont ((h.write _ _).write _ _).incCcur.incCcur
  · exact .cont h

end SameRun

/-- The end of a pixel step, behind its chroma store (R95). -/
theorem Micro.SameRun.state_advance {m m' : Micro p} (h : Micro.SameRun m m') :
    Machine.SameRun (m.andThen fun s => .cont (advance s)).state (m'.andThen fun s => .cont (advance s)).state := by
  cases h with
  | cont h => exact h.advance
  | ended h => exact h

/-- Two states read the same samples of `IN` for the pixels of an operation, below `L` (R52, R104). -/
def SameSamples (s t : MachineState p) : Prop :=
  ∀ n c, n < s.lat.n.toNat → c ≤ 2 → n * s.lat.s.toNat + c < s.lat.l.toNat →
    inByte t (n * s.lat.s.toNat + c) = inByte s (n * s.lat.s.toNat + c)

/-- A pixel step reads `IN` as before and keeps the parameters (R23, R39). -/
theorem SameSamples.pixelStep (h : SameSamples s t) : SameSamples (pixelStep s) (pixelStep t) := by
  obtain ⟨-, hlat, hin, -, -, -, hepoch⟩ := pixelStep_sameEnv s
  obtain ⟨-, -, hin', -, -, -, hepoch'⟩ := pixelStep_sameEnv t
  simp only [SameSamples, inByte, hlat, hin, hepoch, hin', hepoch']
  exact h

/-- The datapath ends alike on the same samples, whatever it held (R113). -/
theorem SameRun.finalDp (h : SameRun s t) (hin : SameSamples s t) (hn : s.seq.index.toNat < s.lat.n.toNat)
    (hf : FetchInBounds s s.seq.index.toNat) : finalDp t = finalDp s := by
  have h0 := hin _ 0 hn (by omega) (by omega)
  have h1 := hin _ 1 hn (by omega) (by omega)
  have h2 := hin _ 2 hn (by omega) hf
  rw [Nat.add_zero] at h0
  unfold Machine.finalDp
  rw [h.lat, h.seq, h0, h1, h2]
  rfl

/-- A pixel step of a running operation goes the same way on the same samples (R95, R100). -/
theorem SameRun.pixelStep (h : SameRun s t) (hrun : Running s) (hin : SameSamples s t) :
    SameRun (pixelStep s) (pixelStep t) := by
  by_cases hf : FetchInBounds s s.seq.index.toNat
  · have ⟨_, _, _, _, _, hn⟩ := hrun
    have hdp := h.finalDp hin hn hf
    have hluma : SameRun (lumaStored s) (lumaStored t) := by
      refine ⟨h.lat, by simp [lumaStored, h.seq], h.status, ?_⟩
      have hout := (h.write s.seq.ycur.toNat (byteOf (Machine.finalDp s).yq)).out
      simpa [lumaStored, hdp, h.seq] using hout
    have hf' : FetchInBounds t t.seq.index.toNat := by rwa [FetchInBounds, h.lat, h.seq]
    have hy' : t.seq.ycur.toNat < t.lat.olen.toNat := by rw [h.lat, h.seq]; exact hrun.ycur_lt
    rw [pixelStep_inBounds s hf hrun.ycur_lt, pixelStep_inBounds t hf' hy', h.seq]
    exact (hluma.chromaStore hdp s.seq.index.toNat).state_advance
  · replace hf := Nat.le_of_not_lt hf
    rw [pixelStep_inOob s hf, pixelStep_inOob t (by rw [h.lat, h.seq]; exact hf), h.lat, h.seq]
    exact h.raise _ _ _

/-- So does a run of the engine, as long as it lasts. -/
theorem SameRun.engineTurns (ha : Adequate p) (k : Nat) (h : SameRun s t)
    (hrun : s.status.state = .busy → Running s) (hin : SameSamples s t) :
    SameRun (engineTurns k s) (engineTurns k t) := by
  induction k generalizing s t with
  | zero => exact h
  | succ k ih =>
    by_cases hb : s.status.state = .busy
    · rw [engineTurns_busy k s hb, engineTurns_busy k t (by rw [h.status]; exact hb)]
      refine ih (h.pixelStep (hrun hb) hin) (fun hb' => ?_) hin.pixelStep
      cases (hrun hb).turnOutcome ha hb with
      | running _ hrun' => exact hrun'
      | finished hd _ => simp [hd] at hb'
      | fault hf _ => simp [hf] at hb'
    · rw [engineTurns_not_busy _ s hb, engineTurns_not_busy _ t (by rw [h.status]; exact hb)]
      exact h

/-- An accepted `Start` on the same configuration registers begins the same operation (R91, R100). -/
theorem start_sameRun (ha : Adequate p) (layout : Layout) (hcfg : s.cfg = t.cfg)
    (hn : s.cfg.width.toNat * s.cfg.height.toNat ≤ p.maxPixels) : SameRun (start layout s) (start layout t) := by
  have hst := start_started ha layout s hn
  have hst' := start_started ha layout t (hcfg ▸ hn)
  have hlat : (start layout t).lat = (start layout s).lat := by
    rw [start_lat ha layout s hn, start_lat ha layout t (hcfg ▸ hn), hcfg]
  refine ⟨hlat, by rw [hst.seq, hst'.seq, hlat], by rw [hst.status, hst'.status, hlat, hcfg], fun a hlt => ?_⟩
  rw [hst.status, hst.olen] at hlt
  rw [hst.outMem, hst'.outMem, ← hcfg, Memory.read_zeroFill, Memory.read_zeroFill, if_pos hlt, if_pos hlt]

/-- The operations that `Start` begins on the same inputs have the same samples (R100, R104). -/
theorem SameInputs.sameSamples_start (ha : Adequate p) (layout : Layout) (h : SameInputs s t)
    (hn : s.cfg.width.toNat * s.cfg.height.toNat ≤ p.maxPixels) :
    SameSamples (start layout s) (start layout t) := by
  obtain ⟨hcfg, hin⟩ := h
  have hst := start_started ha layout s hn
  have hst' := start_started ha layout t (hcfg ▸ hn)
  simp only [SameSamples, inByte, hst.n, hst.stride, hst.l, hst.inMem, hst.epoch, hst'.inMem, hst'.epoch]
  exact fun n c hlt hc hl => (hin n c hlt hc hl).symm

/-- Settles O49: an accepted operation runs the same way on the same inputs; one beyond `MAX_PIXELS` is over at
once, with `OUT_LEN` = 0. -/
theorem outcomeDependsOnInputsOnly : Obligations.OutcomeDependsOnInputsOnly := by
  intro p layout s t k ha h s' t'
  by_cases hn : s.cfg.width.toNat * s.cfg.height.toNat ≤ p.maxPixels
  · have hstart := start_sameRun ha layout h.1 hn
    have hrun (hb : (start layout s).status.state = .busy) : Running (start layout s) := by
      have hst := start_started ha layout s hn
      refine hst.running hn (Nat.pos_of_ne_zero fun h0 => ?_)
      rw [hst.status, if_pos h0] at hb
      cases hb
    obtain ⟨-, -, hstatus, hout⟩ := hstart.engineTurns ha k hrun (h.sameSamples_start ha layout hn)
    exact ⟨hstatus.symm, fun a hlt => (hout a hlt).symm⟩
  · have hgeom := Nat.lt_of_not_le hn
    have hs := start_geom ha layout s hgeom
    have ht := start_geom ha layout t (h.1 ▸ hgeom)
    have hs' : s' = start layout s := engineTurns_not_busy k _ (by simp [hs])
    have ht' : t' = start layout t := engineTurns_not_busy k _ (by simp [ht])
    rw [hs', ht', hs, ht]
    exact ⟨rfl, fun a hlt => absurd hlt (by simp)⟩

end Sys2Proof.Machine

/-! SUPPORT. The colour transform on sample registers of 8 bits (spec/41_color_transform.md R105 to R118): the ranges of
the three row sums, what the accumulators hold after each row, and the clamp as the identity on them. -/

namespace Sys2Proof.Machine

variable {p : Config.Params} {bits : Nat}

/-! ## Samples of 8 bits -/

theorem widen_range (h : bits = 8) (v : BitVec bits) : 0 ≤ widen v ∧ widen v ≤ 255 := by
  subst h
  exact ⟨widen_nonneg v, widen_le v⟩

theorem sampleOf_toNat (h : 8 ≤ bits) (v : Byte) : (sampleOf bits v).toNat = v.toNat :=
  BitVec.toNat_setWidth_of_le h

/-- The transform of three registers of 8 bits, read as bytes: the rows may be taken on the registers themselves
(R113). -/
theorem yuv_byteOf (h : bits = 8) (k : Config.Kernel) (r g b : BitVec bits) :
    yuv k (byteOf r) (byteOf g) (byteOf b) =
      (clamp 8 (lumaValue k r g b), clamp 8 (chromaUValue k r g b), clamp 8 (chromaVValue k r g b)) := by
  subst h
  simp only [byteOf_eight, yuv]

/-! ## The row sums -/

theorem rowSum_rowY (r g b : BitVec bits) :
    rowSum Config.wired Config.wired.rowY r g b = 77 * widen r + 150 * widen g + 29 * widen b + 128 := rfl

theorem rowSum_rowU (r g b : BitVec bits) :
    rowSum Config.wired Config.wired.rowU r g b = -43 * widen r - 84 * widen g + 127 * widen b + 128 := by
  change -43 * widen r + -84 * widen g + 127 * widen b + 128 = _
  omega

theorem rowSum_rowV (r g b : BitVec bits) :
    rowSum Config.wired Config.wired.rowV r g b = 127 * widen r - 106 * widen g - 21 * widen b + 128 := by
  change 127 * widen r + -106 * widen g + -21 * widen b + 128 = _
  omega

section Range

variable (h : bits = 8) (r g b : BitVec bits)

include h

/-- The luma sum is least on black and greatest on white (R107). -/
theorem rowSum_rowY_range :
    128 ≤ rowSum Config.wired Config.wired.rowY r g b ∧ rowSum Config.wired Config.wired.rowY r g b ≤ 65408 := by
  have hr := widen_range h r; have hg := widen_range h g; have hb := widen_range h b
  rw [rowSum_rowY]; omega

/-- The U sum is least on yellow and greatest on blue (R108). -/
theorem rowSum_rowU_range :
    -32257 ≤ rowSum Config.wired Config.wired.rowU r g b ∧ rowSum Config.wired Config.wired.rowU r g b ≤ 32513 := by
  have hr := widen_range h r; have hg := widen_range h g; have hb := widen_range h b
  rw [rowSum_rowU]; omega

/-- The V sum is least on cyan and greatest on red (R109). -/
theorem rowSum_rowV_range :
    -32257 ≤ rowSum Config.wired Config.wired.rowV r g b ∧ rowSum Config.wired Config.wired.rowV r g b ≤ 32513 := by
  have hr := widen_range h r; have hg := widen_range h g; have hb := widen_range h b
  rw [rowSum_rowV]; omega

end Range

/-- Every row sum lies in the range of a signed number of 17 bits (R116). -/
theorem rowSum_signed17 (h : bits = 8) {row : Config.Row}
    (hrow : row = Config.wired.rowY ∨ row = Config.wired.rowU ∨ row = Config.wired.rowV) (r g b : BitVec bits) :
    -2 ^ 16 ≤ rowSum Config.wired row r g b ∧ rowSum Config.wired row r g b < 2 ^ 16 := by
  rcases hrow with rfl | rfl | rfl
  · have := rowSum_rowY_range h r g b
    omega
  · have := rowSum_rowU_range h r g b
    omega
  · have := rowSum_rowV_range h r g b
    omega

/-- On the grey axis a row sum depends on the row's total only (R118). -/
theorem rowSum_grey (k : Config.Kernel) (row : Config.Row) (t : BitVec bits) :
    rowSum k row t t t = (row.red + row.green + row.blue) * widen t + k.roundBias := by
  rw [rowSum]; ring

/-! ## The clamp -/

theorem clamp_toNat_of_range (h : 8 ≤ bits) {x : Int} (hl : 0 ≤ x) (hu : x ≤ 255) :
    ((clamp bits x).toNat : Int) = x := by
  rw [clamp_toNat h, if_neg (by omega), if_neg (by omega)]

/-- The clamp of a byte's own value is the byte. -/
theorem clamp_widen (v : Byte) : clamp 8 (widen v) = v :=
  BitVec.eq_of_toNat_eq (Int.ofNat_inj.1 (clamp_toNat_of_range (Nat.le_refl 8) (widen_nonneg v) (widen_le v)))

/-! ## The accumulators after the three rows -/

/-- The three values that the rows leave are samples, and no chroma value is 0 (R107 to R109, R115). -/
theorem wired_values_range (h : bits = 8) (r g b : BitVec bits) :
    (0 ≤ lumaValue Config.wired r g b ∧ lumaValue Config.wired r g b ≤ 255) ∧
      (1 ≤ chromaUValue Config.wired r g b ∧ chromaUValue Config.wired r g b ≤ 255) ∧
      (1 ≤ chromaVValue Config.wired r g b ∧ chromaVValue Config.wired r g b ≤ 255) := by
  subst h
  exact ⟨lumaValue_range r g b, chromaUValue_range r g b, chromaVValue_range r g b⟩

/-- Each row leaves its value in its accumulator, exactly (R107 to R109). -/
theorem wired_accumulators (h : WiredDatapath p) (s : MachineState p) :
    (luma s).dp.yacc.toInt = lumaValue Config.wired s.dp.r s.dp.g s.dp.b ∧
      (chromaU s).dp.uacc.toInt = chromaUValue Config.wired s.dp.r s.dp.g s.dp.b ∧
      (chromaV s).dp.vacc.toInt = chromaVValue Config.wired s.dp.r s.dp.g s.dp.b := by
  obtain ⟨hbits, hkernel, hacc⟩ := h
  obtain ⟨hy, hu, hv⟩ := wired_values_range hbits s.dp.r s.dp.g s.dp.b
  rw [← hkernel] at hy hu hv ⊢
  exact ⟨fitsAccumulator_of_range hacc _ hy.1 hy.2, fitsAccumulator_of_range hacc _ (by omega) hu.2,
    fitsAccumulator_of_range hacc _ (by omega) hv.2⟩

/-! ## Settled -/

/-- Settles O14, by the range of the luma sum and of the value it is shifted to. -/
theorem lumaAccumulator : Obligations.LumaAccumulator := by
  intro p s h ysum
  have hsum : rowSum Config.wired Config.wired.rowY s.dp.r s.dp.g s.dp.b = ysum := rowSum_rowY _ _ _
  obtain ⟨hlo, hhi⟩ := rowSum_rowY_range h.1 s.dp.r s.dp.g s.dp.b
  obtain ⟨hrange, -, -⟩ := wired_values_range h.1 s.dp.r s.dp.g s.dp.b
  obtain ⟨hacc, -, -⟩ := wired_accumulators h s
  refine ⟨(luma s).dp.yacc, rfl, ?_, hsum ▸ hlo, hsum ▸ hhi, hacc ▸ hrange⟩
  rw [hacc, ← hsum]
  rfl

/-- Settles O15, by the range of the U sum and of the value it is shifted and offset to. -/
theorem chromaUAccumulator : Obligations.ChromaUAccumulator := by
  intro p s h usum
  have hsum : rowSum Config.wired Config.wired.rowU s.dp.r s.dp.g s.dp.b = usum := rowSum_rowU _ _ _
  obtain ⟨hlo, hhi⟩ := rowSum_rowU_range h.1 s.dp.r s.dp.g s.dp.b
  obtain ⟨-, hrange, -⟩ := wired_values_range h.1 s.dp.r s.dp.g s.dp.b
  obtain ⟨-, hacc, -⟩ := wired_accumulators h s
  refine ⟨(chromaU s).dp.uacc, rfl, ?_, hsum ▸ hlo, hsum ▸ hhi, hacc ▸ hrange⟩
  rw [hacc, ← hsum]
  rfl

/-- Settles O16, by the range of the V sum and of the value it is shifted and offset to. -/
theorem chromaVAccumulator : Obligations.ChromaVAccumulator := by
  intro p s h vsum
  have hsum : rowSum Config.wired Config.wired.rowV s.dp.r s.dp.g s.dp.b = vsum := rowSum_rowV _ _ _
  obtain ⟨hlo, hhi⟩ := rowSum_rowV_range h.1 s.dp.r s.dp.g s.dp.b
  obtain ⟨-, -, hrange⟩ := wired_values_range h.1 s.dp.r s.dp.g s.dp.b
  obtain ⟨-, -, hacc⟩ := wired_accumulators h s
  refine ⟨(chromaV s).dp.vacc, rfl, ?_, hsum ▸ hlo, hsum ▸ hhi, hacc ▸ hrange⟩
  rw [hacc, ← hsum]
  rfl

/-- Settles O18: the accumulators hold values that the clamp keeps, those of chroma 1 or more. -/
theorem clampNeverSaturates : Obligations.ClampNeverSaturates := by
  intro p s h t
  have hbits : 8 ≤ p.sampleBits := h.1.ge
  have h01 : (0 : Int) ≤ 1 := by decide
  obtain ⟨hyrange, hurange, hvrange⟩ := wired_values_range h.1 s.dp.r s.dp.g s.dp.b
  obtain ⟨hyacc, huacc, hvacc⟩ := wired_accumulators h s
  rw [← hyacc] at hyrange
  rw [← huacc] at hurange
  rw [← hvacc] at hvrange
  have hy : (t.dp.yq.toNat : Int) = (luma s).dp.yacc.toInt := clamp_toNat_of_range hbits hyrange.1 hyrange.2
  have hu : (t.dp.uq.toNat : Int) = (chromaU s).dp.uacc.toInt :=
    clamp_toNat_of_range hbits (h01.trans hurange.1) hurange.2
  have hv : (t.dp.vq.toNat : Int) = (chromaV s).dp.vacc.toInt :=
    clamp_toNat_of_range hbits (h01.trans hvrange.1) hvrange.2
  exact ⟨hy, hu, hv, by omega, by omega⟩

/-- Settles O19: the clamp of each accumulator's value is that component of `yuv`; the frame is that of five
named updates. -/
theorem datapathComputesYuv : Obligations.DatapathComputesYuv := by
  intro p s h t
  obtain ⟨hyacc, huacc, hvacc⟩ := wired_accumulators h s
  have hy : byteOf t.dp.yq = clamp 8 (luma s).dp.yacc.toInt := byteOf_clamp h.1 _
  have hu : byteOf t.dp.uq = clamp 8 (chromaU s).dp.uacc.toInt := byteOf_clamp h.1 _
  have hv : byteOf t.dp.vq = clamp 8 (chromaV s).dp.vacc.toInt := byteOf_clamp h.1 _
  refine ⟨?_, rfl, rfl, rfl, rfl, rfl, rfl⟩
  rw [hy, hu, hv, hyacc, huacc, hvacc, yuv_byteOf h.1]

/-- Settles O20: the sums lie in the range of 17 signed bits, and so of any greater width. -/
theorem seventeenBitsSuffice : Obligations.SeventeenBitsSuffice := by
  intro width r g b row hwidth hrow
  obtain ⟨hlo, hhi⟩ := rowSum_signed17 rfl hrow r g b
  have hpow : (2 : Int) ^ 16 ≤ 2 ^ (width - 1) := pow_le_pow_right₀ (by decide) (by omega)
  exact toInt_ofInt_of_range width _ (by omega) (by omega) (by omega)

/-- Settles O12: a sample register of 8 bits or more keeps the byte's value. -/
theorem fetchLoadsPixel : Obligations.FetchLoadsPixel := fun _ n s hbits hin =>
  ⟨_, _, _, fetch_ok n s hin, sampleOf_toNat hbits _, sampleOf_toNat hbits _, sampleOf_toNat hbits _⟩

/-- Settles O17, by the clamp as a number, once for each accumulator. -/
theorem clampSaturates : Obligations.ClampSaturates := fun _ _ hbits =>
  ⟨_, _, _, rfl, clamp_toNat hbits _, clamp_toNat hbits _, clamp_toNat hbits _⟩

/-- Settles O21: the rows total 256, 0 and 0, so that luma is the sample again and chroma the offset alone. -/
theorem greyAxis : Obligations.GreyAxis := by
  intro t
  have hy : rowSum Config.wired Config.wired.rowY t t t = 256 * widen t + 128 := rowSum_grey _ _ t
  have hu : rowSum Config.wired Config.wired.rowU t t t = 128 := by rw [rowSum_grey]; simp
  have hv : rowSum Config.wired Config.wired.rowV t t t = 128 := by rw [rowSum_grey]; simp
  have hluma : lumaValue Config.wired t t t = widen t := by
    rw [lumaValue, hy, arithShiftRight_eight]; omega
  have hchromaU : chromaUValue Config.wired t t t = 128 := by rw [chromaUValue, hu]; rfl
  have hchromaV : chromaVValue Config.wired t t t = 128 := by rw [chromaVValue, hv]; rfl
  refine ⟨hy, hu, hv, ?_⟩
  rw [yuv, hluma, hchromaU, hchromaV, clamp_widen]
  rfl

end Sys2Proof.Machine

/-! SUPPORT. The gate as an equivalence, and the place of the `k`-th kept sample
(spec/42_chroma_subsampler.md R125 to R129). -/

namespace Sys2Proof.Machine

/-! ## The gate -/

/-- The condition of R125, in general form. -/
theorem gate_eq_true_iff (phase : Config.ColumnPhase) (j index : Nat) :
    gate phase j index = true ↔ j % 2 = 0 ∧ index % 2 = 1 - phase.parity := by
  rw [gate, Bool.and_eq_true, beq_iff_eq, beq_iff_eq]

/-- The condition of R126 on row `j` and column `i`. -/
theorem keepsChroma_rowCol_iff (phase : Config.ColumnPhase) (w j i : Nat) (hi : i < w) :
    keepsChroma phase w (j * w + i) = true ↔ j % 2 = 0 ∧ i % 2 = phase.parity := by
  rw [keepsChroma_rowCol phase w j i hi, Bool.and_eq_true, decide_eq_true_iff, decide_eq_true_iff]

/-- `CGATE` behind the increment of `INDEX` takes the pixel number of the step, not yet advanced (R95, R126). -/
theorem cgate_incIndex {p : Config.Params} (s : MachineState p) (hn : s.seq.index.toNat + 1 < 2 ^ p.addrBits) :
    (cgate (incIndex s)).dp.cgate = gate p.cphase s.seq.j.toNat (s.seq.index.toNat + 1) :=
  congrArg (gate p.cphase s.seq.j.toNat) (toNat_add_one s.seq.index hn)

/-! ## Counting -/

/-- Half of the columns, where they pair up. -/
theorem columnsKept_two_mul (phase : Config.ColumnPhase) (a : Nat) : columnsKept phase (2 * a) = a := by
  cases phase <;> simp only [columnsKept] <;> omega

/-- One sample per 2×2 block of an image of even dimensions (R128). -/
theorem keptCount_even (phase : Config.ColumnPhase) (a b : Nat) :
    keptCount phase (2 * a) (2 * b) = 2 * a * (2 * b) / 4 := by
  have hrows : (2 * b + 1) / 2 = b := by omega
  have hblocks : 2 * a * (2 * b) = 4 * (b * a) := by ring
  rw [keptCount_eq, columnsKept_two_mul, hrows, hblocks, Nat.mul_div_cancel_left _ (by decide)]

/-! ## The place of the `k`-th kept sample -/

/-- The kept columns a row, chosen by `CPHASE` (R128). -/
theorem columnsKept_eq_ite (phase : Config.ColumnPhase) (w : Nat) :
    columnsKept phase w = if phase = .oddColumns then w / 2 else (w + 1) / 2 := by
  cases phase <;> rfl

/-- An image that keeps a sample keeps one in each even row. -/
theorem columnsKept_pos {phase : Config.ColumnPhase} {w h k : Nat} (hk : k < keptCount phase w h) :
    0 < columnsKept phase w := by
  rw [keptCount_eq] at hk
  exact Nat.pos_of_mul_pos_left (Nat.zero_lt_of_lt hk)

/-- The `m`-th kept column of a row lies in the row (R129). -/
theorem keptColumn_lt {phase : Config.ColumnPhase} {w m : Nat} (hm : m < columnsKept phase w) :
    2 * m + phase.parity < w := by
  cases phase with
  | oddColumns =>
    change m < w / 2 at hm
    change 2 * m + 1 < w
    omega
  | evenColumns =>
    change m < (w + 1) / 2 at hm
    change 2 * m + 0 < w
    omega

/-! ## The obligations of the subsampler -/

/-- Settles O22, with the gate's condition as an equivalence. -/
theorem gateComputation : Obligations.GateComputation := fun p s =>
  ⟨gate p.cphase s.seq.j.toNat s.seq.index.toNat, rfl, gate_eq_true_iff _ _ _⟩

/-- Settles O23: the engine's gate is that of R98 on the pixel number, which is the one by row and column. -/
theorem gateByRowAndColumn : Obligations.GateByRowAndColumn := by
  intro p s hindex hi hn
  rw [cgate_incIndex s hn, gate_eq_keepsChroma _ _ _ _ _ hindex hi, hindex]
  exact keepsChroma_rowCol_iff _ _ _ _ hi

/-- Settles O24: the count of all kept pixels is `K`, row by row. -/
theorem keptSampleCount : Obligations.KeptSampleCount := by
  intro w h
  refine ⟨keptBelow_all .oddColumns w h, keptBelow_all .evenColumns w h, fun hw hh phase => ?_⟩
  obtain ⟨a, rfl⟩ := Nat.dvd_of_mod_eq_zero hw
  obtain ⟨b, rfl⟩ := Nat.dvd_of_mod_eq_zero hh
  rw [keptBelow_all, keptCount_even]

/-- Settles O25: the place is that of `keptPixel`, and a pixel number below `W*H` has its row in the image. -/
theorem keptSampleOrder : Obligations.KeptSampleOrder := by
  intro phase w h k hk perRow row column
  have hperRow : perRow = columnsKept phase w := (columnsKept_eq_ite phase w).symm
  have hpixel : row * w + column = keptPixel phase w k := by simp only [row, column, hperRow, keptPixel]
  obtain ⟨hlt, hkeeps, hbelow⟩ := keptPixel_spec phase w h k hk
  rw [← hpixel] at hlt hkeeps hbelow
  have hrow : row * w < h * w := by rw [Nat.mul_comm h w]; omega
  have hcolumn : k % perRow < columnsKept phase w := by
    rw [hperRow]; exact Nat.mod_lt k (columnsKept_pos hk)
  exact ⟨Nat.lt_of_mul_lt_mul_right hrow, keptColumn_lt hcolumn, hkeeps, hbelow⟩

end Sys2Proof.Machine

/-! SUPPORT. The store micro-operations one by one (spec/43_output_reformatter.md R135 to R137), and why an image that
keeps at most one sample per four pixels never overruns `OUT` (R133, R146, R147). -/

namespace Sys2Proof.Machine

variable {p : Config.Params} {s : MachineState p}

/-! ## Reading behind a store -/

/-- A store, by the address that is read. -/
theorem Memory.read_stored (m : Memory) (a : Nat) (v : Byte) (b : Nat) :
    (m.write a v).read b = if b = a then some v else m.read b :=
  (Memory.read_write m a b v).trans (if_congr eq_comm rfl rfl)

/-- Two stores, by the address that is read: the later one wins (R136). -/
theorem Memory.read_stored_twice (m : Memory) (a a' : Nat) (v v' : Byte) (b : Nat) :
    ((m.write a v).write a' v').read b = if b = a' then some v' else if b = a then some v else m.read b := by
  rw [Memory.read_stored, Memory.read_stored]

/-! ## The stores in any state -/

/-- Settles O26, by the luma store in and out of bounds. -/
theorem lumaStore : Obligations.LumaStore := by
  intro p n s
  refine ⟨fun hin => ⟨_, ?_, Memory.read_stored s.outMem _ _⟩, fun hout => ?_⟩
  · rw [ystore, outWrite_ok _ _ _ _ hin]
    rfl
  · rw [ystore, outWrite_oob _ _ _ _ hout]
    rfl

/-- Settles O27, by the first store of the two that does not fit. -/
theorem planarChromaStore : Obligations.PlanarChromaStore := by
  intro p n s u v record
  refine ⟨fun hu => ?_, fun hu hv => ⟨_, ?_, Memory.read_stored s.outMem _ _⟩,
    fun hv => ⟨_, ?_, Memory.read_stored_twice s.outMem _ _ _ _⟩⟩
  · rw [cstorePlanar_eq, if_pos hu]
    rfl
  · rw [cstorePlanar_eq, if_neg (Nat.not_le.2 hu), if_pos hv]
    rfl
  · have hu : u < s.lat.olen.toNat := Nat.lt_of_le_of_lt (Nat.le_add_right _ _) hv
    rw [cstorePlanar_eq, if_neg (Nat.not_le.2 hu), if_neg (Nat.not_le.2 hv)]
    rfl

/-- The chroma cursor advanced twice (R137). -/
theorem incCcur_incCcur (s : MachineState p) :
    incCcur (incCcur s) = s.withSeq { s.seq with ccur := s.seq.ccur + 2 } := by
  have htwo : s.seq.ccur + 1 + 1 = s.seq.ccur + 2 := by ring
  simp only [incCcur, MachineState.withSeq_seq, htwo]
  rfl

/-- Settles O28, by the first store of the two that does not fit. -/
theorem interleavedChromaStore : Obligations.InterleavedChromaStore := by
  intro p n s hc u record
  have hnext : (s.seq.ccur + 1).toNat = u + 1 := toNat_add_one _ hc
  refine ⟨fun hu => ?_, fun hu hv => ⟨_, ?_, Memory.read_stored s.outMem _ _⟩,
    fun hv => ⟨_, ?_, Memory.read_stored_twice s.outMem _ _ _ _⟩⟩
  · rw [cstoreNv12_eq, if_pos hu]
    rfl
  · rw [cstoreNv12_eq, hnext, if_neg (Nat.not_le.2 hu), if_pos hv]
    rfl
  · have hu : u < s.lat.olen.toNat := Nat.lt_of_succ_lt hv
    rw [cstoreNv12_eq, hnext, if_neg (Nat.not_le.2 hu), if_neg (Nat.not_le.2 hv), incCcur_incCcur]
    rfl

/-- Settles O35: the luma cursor is the pixel number, which is below `N`. -/
theorem lumaNeverOverruns : Obligations.LumaNeverOverruns := fun _ _ h => h.ycur_lt

/-! ## Overruns of a running operation -/

/-- A pixel step faults on its input, or on a kept pixel whose V store does not fit (R158, R159). -/
theorem Running.fault_cases (ha : Adequate p) (h : Running s) (hb : s.status.state = .busy)
    (hf : (pixelStep s).status.state = .fault) :
    (pixelStep s).status.cause = .inOob ∨
      keepsChroma p.cphase s.lat.w.toNat s.seq.index.toNat = true ∧
        s.lat.olen.toNat ≤ chromaVAddress s.lat.mode s.lat.voff.toNat s.seq.ccur.toNat := by
  have hlanded (dp out c) : (landed s dp out c).status.state ≠ .fault := by
    simp only [landed, hb]
    split <;> simp
  have ho := h.pixelOutcome ha
  generalize pixelStep s = t at ho hf ⊢
  cases ho with
  | inputFault _ => exact .inl rfl
  | dropped _ _ => exact absurd hf (hlanded _ _ _)
  | keptPlanar _ _ _ _ => exact absurd hf (hlanded _ _ _)
  | keptNv12 _ _ _ _ => exact absurd hf (hlanded _ _ _)
  | outputFault u _ hk hc _ _ _ => exact .inr ⟨hk, hc⟩

/-- An image of even height, and of even width where the even columns are kept, keeps at most one sample per four
pixels (R133). -/
theorem four_mul_keptCount_le {phase : Config.ColumnPhase} {w h : Nat} (hh : h % 2 = 0)
    (hw : phase = .oddColumns ∨ w % 2 = 0) : 4 * keptCount phase w h ≤ w * h := by
  have hrows : 2 * ((h + 1) / 2) = h := by omega
  have hcolumns : 2 * columnsKept phase w ≤ w := by
    cases phase with
    | oddColumns => exact Nat.mul_div_le w 2
    | evenColumns =>
      have heven : w % 2 = 0 := hw.resolve_left (by simp)
      change 2 * ((w + 1) / 2) ≤ w
      omega
  calc 4 * keptCount phase w h = 2 * columnsKept phase w * (2 * ((h + 1) / 2)) := by rw [keptCount_eq]; ring
    _ ≤ w * h := by rw [hrows]; exact Nat.mul_le_mul_right h hcolumns

/-- Where at most one sample per four pixels is kept, the V store of a kept pixel fits in either layout and under either
`VOFF_MODE` (R144, R145). -/
theorem Running.chromaVAddress_lt (h : Running s)
    (hk : keepsChroma p.cphase s.lat.w.toNat s.seq.index.toNat = true)
    (hfour : 4 * keptCount p.cphase s.lat.w.toNat s.lat.h.toNat ≤ s.lat.w.toNat * s.lat.h.toNat) :
    chromaVAddress s.lat.mode s.lat.voff.toNat s.seq.ccur.toNat < s.lat.olen.toNat := by
  have hvoff := Sized.voff_le h.1
  obtain ⟨⟨hn, -, -, -, holen⟩, ⟨-, hccur, -⟩, -, -, -, hindex⟩ := h
  have hkept := keptBelow_lt_keptCount p.cphase _ s.lat.h.toNat _ (hn ▸ hindex) hk
  cases hm : s.lat.mode <;> simp only [hm, chromaVAddress, chromaAdvance] at hccur ⊢ <;> omega

/-- Settles O36: such an image keeps so few samples that no chroma store overruns, and nothing else takes
`OUT_OOB`. -/
theorem evenHeightNeverOverruns : Obligations.EvenHeightNeverOverruns := by
  intro p s ha h hb hh hw hf
  rcases h.fault_cases ha hb hf with hin | ⟨hk, hover⟩
  · exact hin
  · exact absurd hover (Nat.not_le.2 (h.chromaVAddress_lt hk (four_mul_keptCount_le hh hw)))

end Sys2Proof.Machine

/-! SUPPORT. What the program of R98 leaves in its buffer when it ends in `DONE` (spec/43_output_reformatter.md R139 to
R143): the luma of every pixel, and the chroma region as one closed form that each kept sample extends by its two
stores. -/

namespace Sys2Proof.Machine

/-! ## The chroma region in closed form -/

/-- The byte at place `m` of the chroma region behind the stores of the first `kept` samples: in planar layout U where
it is not replaced, then V; in NV12 the pairs interleaved; 0 elsewhere (R140 to R143). -/
def chromaByte (mode : Layout) (voff : Nat) (sample : Nat → Byte × Byte × Byte) (kept m : Nat) : Byte :=
  match mode with
  | .planar =>
    if m < kept ∧ 0 < voff then (sample m).2.1
    else if voff ≤ m ∧ m < kept + voff then (sample (m - voff)).2.2
    else 0
  | .nv12 =>
    if m < 2 * kept then (if m % 2 = 0 then (sample (m / 2)).2.1 else (sample (m / 2)).2.2) else 0

section ChromaByte

variable (mode : Layout) (voff : Nat) (sample : Nat → Byte × Byte × Byte) (kept m : Nat)

/-- Before the first kept sample the region is zero-filled (R54). -/
theorem chromaByte_zero : chromaByte mode voff sample 0 m = 0 := by
  cases mode with
  | planar => rw [chromaByte, if_neg (by omega), if_neg (by omega)]
  | nv12 => rw [chromaByte, if_neg (by omega)]

/-- In planar layout a sample puts its V byte `VOFF` behind its U byte, and over it where `VOFF` = 0 (R136). -/
theorem chromaByte_planar_succ :
    chromaByte .planar voff sample (kept + 1) m =
      if m = kept + voff then (sample kept).2.2
      else if m = kept then (sample kept).2.1
      else chromaByte .planar voff sample kept m := by
  simp only [chromaByte]
  by_cases hv : m = kept + voff
  · rw [if_neg (by omega), if_pos (by omega), if_pos hv, hv, Nat.add_sub_cancel]
  · rw [if_neg hv]
    by_cases hu : m = kept
    · rw [if_pos (by omega), if_pos hu, hu]
    · have hlt : m < kept + 1 ↔ m < kept := by omega
      have hlt' : m < kept + 1 + voff ↔ m < kept + voff := by omega
      rw [if_neg hu]
      simp only [hlt, hlt']

/-- In NV12 layout a sample puts its two bytes behind those of the samples before it (R137). -/
theorem chromaByte_nv12_succ :
    chromaByte .nv12 voff sample (kept + 1) m =
      if m = 2 * kept + 1 then (sample kept).2.2
      else if m = 2 * kept then (sample kept).2.1
      else chromaByte .nv12 voff sample kept m := by
  simp only [chromaByte]
  by_cases hv : m = 2 * kept + 1
  · have hhalf : m / 2 = kept := by omega
    rw [if_pos (by omega), if_neg (by omega), if_pos hv, hhalf]
  · rw [if_neg hv]
    by_cases hu : m = 2 * kept
    · have hhalf : m / 2 = kept := by omega
      rw [if_pos (by omega), if_pos (by omega), if_pos hu, hhalf]
    · have hlt : m < 2 * (kept + 1) ↔ m < 2 * kept := by omega
      rw [if_neg hu]
      simp only [hlt]

/-- A kept sample adds its U byte at the cursor and its V byte at the address that goes with it, V last (R136,
R137). -/
theorem chromaByte_succ :
    chromaByte mode voff sample (kept + 1) m =
      if m = chromaVAddress mode voff (chromaAdvance mode * kept) then (sample kept).2.2
      else if m = chromaAdvance mode * kept then (sample kept).2.1
      else chromaByte mode voff sample kept m := by
  cases mode with
  | planar =>
    simp only [chromaVAddress, chromaAdvance, Nat.one_mul]
    exact chromaByte_planar_succ voff sample kept m
  | nv12 => exact chromaByte_nv12_succ voff sample kept m

/-- The U byte of the `k`-th pair (R140). -/
theorem chromaByte_nv12_u {kept k : Nat} (hk : k < kept) :
    chromaByte .nv12 voff sample kept (2 * k) = (sample k).2.1 := by
  rw [chromaByte, if_pos (by omega), if_pos (by omega), Nat.mul_div_cancel_left k (by decide)]

/-- The V byte of the `k`-th pair (R140). -/
theorem chromaByte_nv12_v {kept k : Nat} (hk : k < kept) :
    chromaByte .nv12 voff sample kept (2 * k + 1) = (sample k).2.2 := by
  have hhalf : (2 * k + 1) / 2 = k := by omega
  rw [chromaByte, if_pos (by omega), if_neg (by omega), hhalf]

end ChromaByte

/-- The V address moves with the cursor. -/
theorem chromaVAddress_add (mode : Layout) (voff base c : Nat) :
    chromaVAddress mode voff (base + c) = base + chromaVAddress mode voff c := by
  cases mode <;> exact Nat.add_assoc _ _ _

/-- The V byte lies at or behind the U byte (R136, R137). -/
theorem le_chromaVAddress (mode : Layout) (voff ccur : Nat) : ccur ≤ chromaVAddress mode voff ccur := by
  cases mode <;> exact Nat.le_add_right _ _

/-! ## The samples in order -/

/-- The count rises behind a kept pixel (R22). -/
theorem keptBelow_lt_of_keeps {phase : Config.ColumnPhase} {w m n : Nat} (hk : keepsChroma phase w m = true)
    (hlt : m < n) : keptBelow phase w m < keptBelow phase w n := by
  have hmono : keptBelow phase w (m + 1) ≤ keptBelow phase w n := keptBelow_mono phase w hlt
  rw [keptBelow_succ_of_keeps phase w m hk] at hmono
  exact hmono

/-- A kept pixel is the place of the sample numbered by the kept pixels below it (R129). -/
theorem keptPixel_keptBelow {phase : Config.ColumnPhase} {w h n : Nat} (hn : n < w * h)
    (hk : keepsChroma phase w n = true) : keptPixel phase w (keptBelow phase w n) = n := by
  obtain ⟨-, hkeeps, hbelow⟩ := keptPixel_spec phase w h _ (keptBelow_lt_keptCount phase w h n hn hk)
  rcases Nat.lt_trichotomy (keptPixel phase w (keptBelow phase w n)) n with hlt | heq | hgt
  · have := keptBelow_lt_of_keeps hkeeps hlt
    omega
  · exact heq
  · have := keptBelow_lt_of_keeps hk hgt
    omega

/-- The place of a kept sample, with the kept columns a row written out (R129). -/
theorem keptPixel_eq_ite (phase : Config.ColumnPhase) (w k : Nat) :
    keptPixel phase w k =
      2 * (k / if phase = .oddColumns then w / 2 else (w + 1) / 2) * w +
        (2 * (k % if phase = .oddColumns then w / 2 else (w + 1) / 2) + phase.parity) := by
  rw [keptPixel, columnsKept_eq_ite]

/-- The colour of the `k`-th kept sample (R129). -/
def Job.sample (job : Job) (inp : Nat → Byte) (k : Nat) : Byte × Byte × Byte :=
  job.colour inp (keptPixel job.phase job.w k)

/-! ## The buffer after each round -/

variable {job : Job} {inp : Nat → Byte} {h n : Nat} {out : List Byte}

/-- The buffer behind the first `n` pixels of an image of height `h`: their luma, and the chroma region behind the
samples kept so far, all of whose stores were within the buffer. -/
structure Job.Painted (job : Job) (inp : Nat → Byte) (h n : Nat) (out : List Byte) : Prop where
  length : out.length = job.olen
  luma : ∀ m, m < n → out[m]? = some (job.colour inp m).1
  chroma : ∀ m, job.w * h + m < job.olen →
    out[job.w * h + m]? =
      some (chromaByte job.mode job.voff (job.sample inp) (keptBelow job.phase job.w n) m)
  fits : ∀ k, k < keptBelow job.phase job.w n →
    chromaVAddress job.mode job.voff (job.w * h + chromaAdvance job.mode * k) < job.olen

/-- The zero-filled buffer, before the first pixel (R54). -/
theorem Job.painted_replicate (job : Job) (inp : Nat → Byte) (h : Nat) :
    job.Painted inp h 0 (List.replicate job.olen 0) where
  length := List.length_replicate
  luma _ hm := absurd hm (Nat.not_lt_zero _)
  chroma m hm := by rw [keptBelow, chromaByte_zero, List.getElem?_replicate, if_pos hm]
  fits _ hk := absurd hk (Nat.not_lt_zero _)

section Round

variable (hroom : job.w * h ≤ job.olen) (hn : n < job.w * h) (hp : job.Painted inp h n out)

include hroom hn hp

/-- The luma store of the next pixel reaches the Y plane only (R135). -/
theorem Job.Painted.set_luma :
    (∀ m, m < n + 1 → (out.set n (job.colour inp n).1)[m]? = some (job.colour inp m).1) ∧
      ∀ m, (out.set n (job.colour inp n).1)[job.w * h + m]? = out[job.w * h + m]? := by
  have hlt : n < out.length := by rw [hp.length]; omega
  refine ⟨fun m hm => ?_, fun m => ?_⟩
  · rw [List.getElem?_set_of_lt' _ _ hlt]
    split
    · subst m; rfl
    · exact hp.luma m (by omega)
  · rw [List.getElem?_set_of_lt' _ _ hlt, if_neg (by omega)]

/-- A round on a dropped pixel stores its luma (R135). -/
theorem Job.Painted.dropped (hk : keepsChroma job.phase job.w n = false) :
    job.Painted inp h (n + 1) (out.set n (job.colour inp n).1) := by
  obtain ⟨hluma, hframe⟩ := hp.set_luma hroom hn
  refine ⟨by rw [List.length_set, hp.length], hluma, fun m hm => ?_, ?_⟩
  · rw [hframe, keptBelow_succ_of_not _ _ _ hk]
    exact hp.chroma m hm
  · rw [keptBelow_succ_of_not _ _ _ hk]
    exact hp.fits

/-- A round on a kept pixel whose stores fit adds its luma and its sample (R135 to R137). -/
theorem Job.Painted.kept (hk : keepsChroma job.phase job.w n = true) {c v : Nat}
    (hc : c = job.w * h + chromaAdvance job.mode * keptBelow job.phase job.w n)
    (hv : v = chromaVAddress job.mode job.voff c) (hlt : v < job.olen) :
    job.Painted inp h (n + 1)
      (((out.set n (job.colour inp n).1).set c (job.colour inp n).2.1).set v (job.colour inp n).2.2) := by
  have hcv : c ≤ v := hv ▸ le_chromaVAddress job.mode job.voff c
  have hplace : v = job.w * h +
      chromaVAddress job.mode job.voff (chromaAdvance job.mode * keptBelow job.phase job.w n) := by
    rw [hv, hc, chromaVAddress_add]
  have hsample : job.sample inp (keptBelow job.phase job.w n) = job.colour inp n := by
    rw [Job.sample, keptPixel_keptBelow hn hk]
  have hread (b : Nat) :
      (((out.set n (job.colour inp n).1).set c (job.colour inp n).2.1).set v (job.colour inp n).2.2)[b]? =
        if v = b then some (job.colour inp n).2.2
        else if c = b then some (job.colour inp n).2.1
        else (out.set n (job.colour inp n).1)[b]? := by
    have hlen := hp.length
    rw [List.getElem?_set_of_lt' _ _ (by simp only [List.length_set]; omega),
      List.getElem?_set_of_lt' _ _ (by rw [List.length_set]; omega)]
  obtain ⟨hluma, hframe⟩ := hp.set_luma hroom hn
  refine ⟨by simp only [List.length_set, hp.length], fun m hm => ?_, fun m hm => ?_, fun k hkk => ?_⟩
  · rw [hread, if_neg (by omega), if_neg (by omega)]
    exact hluma m hm
  · have hmv : v = job.w * h + m ↔
        m = chromaVAddress job.mode job.voff (chromaAdvance job.mode * keptBelow job.phase job.w n) := by omega
    have hmc : c = job.w * h + m ↔ m = chromaAdvance job.mode * keptBelow job.phase job.w n := by omega
    rw [hread, keptBelow_succ_of_keeps _ _ _ hk, chromaByte_succ, hsample, hframe, hp.chroma m hm]
    simp only [hmv, hmc]
    split_ifs <;> rfl
  · rw [keptBelow_succ_of_keeps _ _ _ hk] at hkk
    rcases Nat.lt_succ_iff_lt_or_eq.1 hkk with hold | hlast
    · exact hp.fits k hold
    · rw [hlast, ← hc, ← hv]
      exact hlt

end Round

/-- A round of a program that ends in `DONE`: its fetch and its chroma stores, if any, are in bounds. -/
theorem convertLoop_done_cases {fuel ycur ccur : Nat} {out' : List Byte}
    (hd : convertLoop job inp (fuel + 1) n ycur ccur out = .done out') :
    keepsChroma job.phase job.w n = false ∧
        convertLoop job inp fuel (n + 1) (ycur + 1) ccur (out.set ycur (job.colour inp n).1) = .done out' ∨
      keepsChroma job.phase job.w n = true ∧ chromaVAddress job.mode job.voff ccur < job.olen ∧
        convertLoop job inp fuel (n + 1) (ycur + 1) (ccur + chromaAdvance job.mode)
          (((out.set ycur (job.colour inp n).1).set ccur (job.colour inp n).2.1).set
            (chromaVAddress job.mode job.voff ccur) (job.colour inp n).2.2) = .done out' := by
  by_cases hf : n * job.s + 2 < job.l
  · cases hk : keepsChroma job.phase job.w n with
    | false =>
      rw [convertLoop_dropped _ _ _ _ _ _ _ hf hk] at hd
      exact .inl ⟨rfl, hd⟩
    | true =>
      rw [convertLoop_kept _ _ _ _ _ _ _ hf hk] at hd
      split_ifs at hd with hu hv
      exact .inr ⟨rfl, Nat.lt_of_not_le hv, hd⟩
  · rw [convertLoop_inOob _ _ _ _ _ _ _ (Nat.le_of_not_lt hf)] at hd
    cases hd

/-- The loop of R98 paints the pixels that are left, if it ends in `DONE`. -/
theorem Job.Painted.of_convertLoop_done (hroom : job.w * h ≤ job.olen) {fuel : Nat} {out' : List Byte}
    (hp : job.Painted inp h n out) (hfuel : n + fuel = job.w * h)
    (hd : convertLoop job inp fuel n n (job.w * h + chromaAdvance job.mode * keptBelow job.phase job.w n) out =
      .done out') :
    job.Painted inp h (job.w * h) out' := by
  induction fuel generalizing n out with
  | zero =>
    cases hd
    rwa [← hfuel]
  | succ fuel ih =>
    have hn : n < job.w * h := by omega
    rcases convertLoop_done_cases hd with ⟨hk, hrest⟩ | ⟨hk, hlt, hrest⟩
    · refine ih (hp.dropped hroom hn hk) (by omega) ?_
      rwa [keptBelow_succ_of_not _ _ _ hk]
    · refine ih (hp.kept hroom hn hk rfl rfl hlt) (by omega) ?_
      rwa [keptBelow_succ_of_keeps _ _ _ hk, Nat.mul_succ, ← Nat.add_assoc]

end Sys2Proof.Machine

/-! SUPPORT. The bytes of `OUT` behind a whole operation that ends in `DONE` (spec/43_output_reformatter.md R139 to
R143): the machine's run ends as the program of R98 does, whose buffer is known. -/

namespace Sys2Proof.Machine

variable {p : Config.Params} {s : MachineState p} {layout : Layout}

/-! ## The operation that a command begins -/

/-- What the program of R98 holds fixed for the operation that `Start` begins from `s` (R91). -/
def startedJob (layout : Layout) (s : MachineState p) : Job where
  kernel := p.kernel
  phase := p.cphase
  mode := layout
  w := s.cfg.width.toNat
  s := s.cfg.bpp.toNat
  l := s.cfg.inLen.toNat
  voff := vOffset p.voffMode (chromaPlaneSize (s.cfg.width.toNat * s.cfg.height.toNat))
  olen := outputLength (s.cfg.width.toNat * s.cfg.height.toNat)

/-- The transform of the bytes at the place of the `k`-th kept sample is that sample (R113, R129). -/
theorem yuv_eq_sample (layout : Layout) (s : MachineState p) {n k : Nat}
    (hn : n = keptPixel p.cphase s.cfg.width.toNat k) :
    yuv p.kernel (inByte s (n * s.cfg.bpp.toNat)) (inByte s (n * s.cfg.bpp.toNat + 1))
      (inByte s (n * s.cfg.bpp.toNat + 2)) = (startedJob layout s).sample (inByte s) k := by
  subst hn
  rfl

/-- An operation that ends in `DONE` had its geometry accepted (R160). -/
theorem pixelCount_le_of_done (ha : Adequate p) {k : Nat}
    (hd : (engineTurns k (start layout s)).status.state = .done) :
    s.cfg.width.toNat * s.cfg.height.toNat ≤ p.maxPixels := by
  by_contra hgeom
  have hs := start_geom ha layout s (Nat.lt_of_not_le hgeom)
  rw [engineTurns_not_busy k _ (by simp [hs]), hs] at hd
  cases hd

/-- The program of R98 that ends in `DONE` has painted the whole image. -/
theorem painted_of_convertReference_done {out : List Byte}
    (hd : convertReference p layout s.cfg.width.toNat s.cfg.height.toNat s.cfg.bpp.toNat s.cfg.inLen.toNat (inByte s) =
      .done out) :
    (startedJob layout s).Painted (inByte s) s.cfg.height.toNat (s.cfg.width.toNat * s.cfg.height.toNat) out := by
  have hroom : (startedJob layout s).w * s.cfg.height.toNat ≤ (startedJob layout s).olen := by
    simp only [startedJob, outputLength]
    omega
  exact ((startedJob layout s).painted_replicate (inByte s) s.cfg.height.toNat).of_convertLoop_done hroom
    (Nat.zero_add _) hd

/-- An operation that ends in `DONE` leaves the painted image in `OUT`. -/
theorem exists_painted_of_done (ha : Adequate p)
    (hd : (engineTurns (s.cfg.width.toNat * s.cfg.height.toNat) (start layout s)).status.state = .done) :
    ∃ out,
      (startedJob layout s).Painted (inByte s) s.cfg.height.toNat (s.cfg.width.toNat * s.cfg.height.toNat) out ∧
      (engineTurns (s.cfg.width.toNat * s.cfg.height.toNat) (start layout s)).outMem.Holds out := by
  have hends := engineTurns_start_endsAs ha layout s (pixelCount_le_of_done ha hd)
  generalize hr : convertReference p layout _ _ _ _ _ = r at hends
  cases r with
  | done out =>
    obtain ⟨-, -, -, hholds⟩ := hends
    exact ⟨out, painted_of_convertReference_done hr, hholds⟩
  | inOob addr pix =>
    obtain ⟨hf, -⟩ := hends
    cases hd.symm.trans hf
  | outOob addr pix =>
    obtain ⟨hf, -⟩ := hends
    cases hd.symm.trans hf

/-! ## The image in `OUT` -/

/-- `OUT` below `OLEN` behind an operation of `layout` begun from `s`: the Y plane, the chroma region, and where the
last chroma stores went. -/
structure FinalImage (layout : Layout) (s t : MachineState p) : Prop where
  luma : ∀ m, m < s.cfg.width.toNat * s.cfg.height.toNat →
    t.outMem.read m = some ((startedJob layout s).colour (inByte s) m).1
  chroma : ∀ m, m < s.cfg.width.toNat * s.cfg.height.toNat / 2 →
    t.outMem.read (s.cfg.width.toNat * s.cfg.height.toNat + m) =
      some (chromaByte layout (startedJob layout s).voff ((startedJob layout s).sample (inByte s))
        (keptCount p.cphase s.cfg.width.toNat s.cfg.height.toNat) m)
  fits : ∀ k, k < keptCount p.cphase s.cfg.width.toNat s.cfg.height.toNat →
    chromaVAddress layout (startedJob layout s).voff (chromaAdvance layout * k) <
      s.cfg.width.toNat * s.cfg.height.toNat / 2

/-- The image of an operation that ends in `DONE` (R139 to R143). -/
theorem finalImage_of_done (ha : Adequate p)
    (hd : (engineTurns (s.cfg.width.toNat * s.cfg.height.toNat) (start layout s)).status.state = .done) :
    FinalImage layout s (engineTurns (s.cfg.width.toNat * s.cfg.height.toNat) (start layout s)) := by
  obtain ⟨out, ⟨hlength, hluma, hchroma, hfits⟩, hholds⟩ := exists_painted_of_done ha hd
  have holen : (startedJob layout s).olen =
      s.cfg.width.toNat * s.cfg.height.toNat + s.cfg.width.toNat * s.cfg.height.toNat / 2 := by
    simp only [startedJob, outputLength]
    omega
  have hbelow : keptBelow (startedJob layout s).phase (startedJob layout s).w
      (s.cfg.width.toNat * s.cfg.height.toNat) = keptCount p.cphase s.cfg.width.toNat s.cfg.height.toNat :=
    keptBelow_all _ _ _
  rw [hbelow] at hchroma hfits
  rw [holen] at hlength hchroma hfits
  refine ⟨fun m hm => ?_, fun m hm => ?_, fun k hk => ?_⟩
  · rw [hholds m (by omega), hluma m hm]
  · rw [hholds _ (by omega)]
    exact hchroma m (Nat.add_lt_add_left hm _)
  · have hlt := hfits k hk
    rw [chromaVAddress_add] at hlt
    exact Nat.lt_of_add_lt_add_left hlt

/-! ## Settled -/

/-- The displacement of the V plane, with `VOFF_MODE` written out (R7). -/
theorem vOffset_eq_ite (mode : Config.VoffMode) (n : Nat) :
    vOffset mode (chromaPlaneSize n) = if mode = .half then (n / 4 + 1) / 2 else n / 4 := by
  cases mode <;> rfl

/-- The V samples lie on the U samples exactly for at most 3 pixels (R143). -/
theorem vOffset_eq_zero_iff (mode : Config.VoffMode) (n : Nat) : vOffset mode (n / 4) = 0 ↔ n ≤ 3 := by
  cases mode <;> simp only [vOffset] <;> omega

/-- Settles O45: the Y plane of the image does not depend on the layout. -/
theorem finalLumaPlane : Obligations.FinalLumaPlane := by
  intro p s m n finish ha hm
  have hluma (layout : Layout) (hd : (finish layout).status.state = .done) :
      (finish layout).outMem.read m =
        some (yuv p.kernel (inByte s (m * s.cfg.bpp.toNat)) (inByte s (m * s.cfg.bpp.toNat + 1))
          (inByte s (m * s.cfg.bpp.toNat + 2))).1 := (finalImage_of_done ha hd).luma m hm
  exact ⟨hluma, fun hplanar hnv12 => (hluma .planar hplanar).trans (hluma .nv12 hnv12).symm⟩

/-- Settles O46: the places `2k` and `2k + 1` of the chroma region in closed form, and those behind the last pair. -/
theorem finalInterleavedChroma : Obligations.FinalInterleavedChroma := by
  intro p s t w h n perRow pixel colour ha ht hd
  have hcolour (k : Nat) : colour k = (startedJob .nv12 s).sample (inByte s) k :=
    yuv_eq_sample .nv12 s (keptPixel_eq_ite p.cphase w k).symm
  subst ht
  obtain ⟨-, hchroma, hfits⟩ := finalImage_of_done ha hd
  refine ⟨fun k hk => ?_, fun m hm hlt => ?_⟩
  · have hv : 2 * k + 1 < n / 2 := hfits k hk
    rw [hcolour, Nat.add_assoc n, hchroma _ (Nat.lt_of_succ_lt hv), hchroma _ hv, chromaByte_nv12_u _ _ hk,
      chromaByte_nv12_v _ _ hk]
    exact ⟨rfl, rfl⟩
  · rw [hchroma m hlt, chromaByte, if_neg (Nat.not_lt.2 hm)]

/-- Settles O47: with `VOFF` above 0 every U stays, and V shows behind the last U. -/
theorem finalPlanarChroma : Obligations.FinalPlanarChroma := by
  intro p s t w h n voff kept perRow pixel colour ha ht hd hvoff m hm
  have hcolour (k : Nat) : colour k = (startedJob .planar s).sample (inByte s) k :=
    yuv_eq_sample .planar s (keptPixel_eq_ite p.cphase w k).symm
  have hjob : (startedJob .planar s).voff = voff := vOffset_eq_ite p.voffMode n
  subst ht
  rw [(finalImage_of_done ha hd).chroma m hm, hjob, hcolour, hcolour, chromaByte]
  by_cases hu : m < kept
  · rw [if_pos ⟨hu, hvoff⟩, if_pos hu]
  · have hplace : max kept voff ≤ m ∧ m < kept + voff ↔ voff ≤ m ∧ m < kept + voff := by omega
    rw [if_neg (fun hc => hu hc.1), if_neg hu]
    simp only [hplace]
    split <;> rfl

/-- Settles O48: with `VOFF` = 0 the V byte of a sample is at the place of its U byte. -/
theorem finalPlanarTinyImage : Obligations.FinalPlanarTinyImage := by
  intro p s t w h n perRow pixel ha ht hd
  subst ht
  have hlatched : (engineTurns n (start .planar s)).lat.voff.toNat = vOffset p.voffMode (n / 4) := by
    obtain ⟨-, hlat, -⟩ := engineTurns_sameEnv n (start .planar s)
    rw [hlat, (start_started ha .planar s (pixelCount_le_of_done ha hd)).voff]
  refine ⟨?_, fun hn k hk => ?_⟩
  · rw [← vOffset_eq_zero_iff p.voffMode n, ← hlatched]
    exact ⟨fun hz => by rw [hz]; rfl, fun hz => BitVec.eq_of_toNat_eq hz⟩
  · obtain ⟨-, hchroma, hfits⟩ := finalImage_of_done ha hd
    have hjob : (startedJob .planar s).voff = 0 := (vOffset_eq_zero_iff p.voffMode n).2 hn
    have hlt : k < n / 2 := by
      have := hfits k hk
      rw [hjob, chromaAdvance, Nat.one_mul] at this
      exact this
    rw [hchroma k hlt, hjob, chromaByte, if_neg (by omega), if_pos ⟨Nat.zero_le k, hk⟩, Nat.sub_zero]
    exact congrArg (some ·.2.2) (yuv_eq_sample .planar s (keptPixel_eq_ite p.cphase w k).symm).symm

end Sys2Proof.Machine

/-! SUPPORT. The two bounds faults of a pixel step (spec/60_exceptions.md R158, R159, R164 to R167): what each of them
writes, and what `OUT` holds behind the second. -/

namespace Sys2Proof.Machine

variable {p : Config.Params} {s : MachineState p}

/-- Settles O31: the fetch comes first and ends the step, so the record of `raise` is all that is written. -/
theorem pixelStepInputFault : Obligations.PixelStepInputFault := by
  intro p s hf
  rw [pixelStep_inOob s (Nat.le_of_not_lt hf)]
  rfl

/-- The chroma cursor stands beyond the luma plane, so no U store hits the luma byte of the pixel (R20, R22). -/
theorem Running.index_lt_ccur (h : Running s) : s.seq.index.toNat < s.seq.ccur.toNat := by
  obtain ⟨-, ⟨-, hccur, -⟩, -, -, -, hn⟩ := h
  omega

/-- A pixel step of a running operation whose V store does not fit faults at `OLEN` from a state with the record as it
was. It has stored the luma byte, and the U byte where that one fits (R159, R167). -/
theorem Running.pixelStep_outputFault_eq (ha : Adequate p) (h : Running s) (hf : FetchInBounds s s.seq.index.toNat)
    (hk : keepsChroma p.cphase s.lat.w.toNat s.seq.index.toNat = true)
    (hv : s.lat.olen.toNat ≤ chromaVAddress s.lat.mode s.lat.voff.toNat s.seq.ccur.toNat) :
    ∃ u, pixelStep s = raise .outOob s.lat.olen.toNat s.seq.index.toNat u ∧ u.status = s.status ∧
      ∀ a, u.outMem.read a =
        if s.seq.ccur.toNat < s.lat.olen.toNat ∧ a = s.seq.ccur.toNat then some (currentYuv s).2.1
        else if a = s.seq.index.toNat then some (currentYuv s).1
        else s.outMem.read a := by
  have ho := h.pixelOutcome ha
  generalize pixelStep s = t at ho
  cases ho with
  | inputFault hl => exact absurd hf (Nat.not_lt.2 hl)
  | dropped _ hd => exact absurd hk (by simp [hd])
  | keptPlanar _ _ hm hc => exact absurd hv (Nat.not_le.2 (by rwa [hm]))
  | keptNv12 _ _ hm hc => exact absurd hv (Nat.not_le.2 (by rwa [hm]))
  | outputFault u _ _ _ _ hst hout =>
    refine ⟨u, rfl, hst, fun a => ?_⟩
    rcases hout with ⟨hu, hmem⟩ | ⟨hu, hmem⟩
    · simp only [hmem, Memory.read_stored, Nat.not_lt.2 hu, false_and, if_false]
    · simp only [hmem, Memory.read_stored_twice, hu, true_and]

/-- Settles O32: the step faults at `OLEN`, and the chroma cursor is not the address of the luma byte. -/
theorem pixelStepOutputFault : Obligations.PixelStepOutputFault := by
  intro p s ha h _ hf hk hover n c
  have hv : s.lat.olen.toNat ≤ chromaVAddress s.lat.mode s.lat.voff.toNat s.seq.ccur.toNat := by
    cases hm : s.lat.mode <;> simpa [hm, chromaVAddress] using hover
  have hne := h.index_lt_ccur
  obtain ⟨u, hstep, hst, hread⟩ := h.pixelStep_outputFault_eq ha hf hk hv
  refine ⟨_, hstep, ?_, ?_, fun hu => ?_, fun hu => ?_, fun a hn hc => ?_⟩
  · simp [hst, n]
  · exact (hread n).trans (by rw [if_neg (fun hc => hne.ne hc.2), if_pos rfl]; rfl)
  · exact (hread _).trans (if_pos ⟨hu, rfl⟩)
  · exact (hread _).trans (by rw [if_neg (fun hc => Nat.not_lt.2 hu hc.1), if_neg hne.ne'])
  · exact (hread a).trans (by rw [if_neg (fun hstored => hc hstored.2), if_neg hn])

end Sys2Proof.Machine

/-! SUPPORT. When a whole operation ends in `DONE` (spec/70_reset_and_hazards.md R184): the program of R98 does exactly
when every fetch and every chroma store of it is in bounds, and the machine ends as that program does. -/

namespace Sys2Proof.Machine

variable {p : Config.Params} {job : Job} {inp : Nat → Byte}

/-! ## Programs that end in `DONE` -/

/-- The end is `DONE` (R98). -/
def Conversion.IsDone : Conversion → Prop
  | .done _ => True
  | .inOob _ _ => False
  | .outOob _ _ => False

/-- The machine is in `DONE` where the program it ended as is (R97, R164). -/
theorem EndsAs.done_iff {t : MachineState p} {r : Conversion} (h : EndsAs t r) :
    t.status.state = .done ↔ r.IsDone := by
  cases r <;> obtain ⟨hs, -⟩ := h <;> simp [hs, Conversion.IsDone]

/-- A property of a range of numbers, with the first of them apart. -/
theorem forall_Ico_iff {P : Nat → Prop} {m n : Nat} (h : m < n) :
    (∀ k ∈ Set.Ico m n, P k) ↔ P m ∧ ∀ k ∈ Set.Ico (m + 1) n, P k := by
  rw [← Set.insert_Ico_add_one_left_eq_Ico h, Set.forall_mem_insert]

/-- The loop of R98 ends in `DONE` exactly when the fetches of the pixels left and the V stores of the samples left are
in bounds; the U store of a sample lies before its V store or at the same place (R184). -/
theorem convertLoop_isDone_iff (base fuel n ycur : Nat) (out : List Byte) :
    (convertLoop job inp fuel n ycur (base + chromaAdvance job.mode * keptBelow job.phase job.w n) out).IsDone ↔
      (∀ m ∈ Set.Ico n (n + fuel), m * job.s + 2 < job.l) ∧
        ∀ k ∈ Set.Ico (keptBelow job.phase job.w n) (keptBelow job.phase job.w (n + fuel)),
          chromaVAddress job.mode job.voff (base + chromaAdvance job.mode * k) < job.olen := by
  induction fuel generalizing n ycur out with
  | zero => simp [convertLoop, Conversion.IsDone]
  | succ fuel ih =>
    rw [forall_Ico_iff (by omega : n < n + (fuel + 1))]
    by_cases hf : n * job.s + 2 < job.l
    · have hnext : n + (fuel + 1) = n + 1 + fuel := by omega
      simp only [hf, true_and, hnext]
      cases hk : keepsChroma job.phase job.w n with
      | false =>
        have hrest := ih (n + 1) (ycur + 1) (out.set ycur (job.colour inp n).1)
        rwa [keptBelow_succ_of_not _ _ _ hk, ← convertLoop_dropped _ _ _ _ _ _ _ hf hk] at hrest
      | true =>
        rw [forall_Ico_iff (keptBelow_lt_of_keeps hk (by omega)), ← keptBelow_succ_of_keeps _ _ _ hk]
        by_cases hv : chromaVAddress job.mode job.voff
            (base + chromaAdvance job.mode * keptBelow job.phase job.w n) < job.olen
        · have hu := Nat.lt_of_le_of_lt (le_chromaVAddress job.mode job.voff _) hv
          rw [convertLoop_stored _ _ _ _ _ _ _ hf hk hu hv, Nat.add_assoc base, ← Nat.mul_succ, Nat.succ_eq_add_one,
            ← keptBelow_succ_of_keeps _ _ _ hk, ih]
          simp only [hv, true_and]
        · rw [convertLoop_kept _ _ _ _ _ _ _ hf hk, if_pos (Nat.le_of_not_lt hv)]
          split <;> simp [hv, Conversion.IsDone]
    · rw [convertLoop_inOob _ _ _ _ _ _ _ (Nat.le_of_not_lt hf)]
      simp [hf, Conversion.IsDone]

/-- The loop of R98 over a whole image of height `h` (R184). -/
theorem convertLoop_image_isDone_iff (h : Nat) (out : List Byte) :
    (convertLoop job inp (job.w * h) 0 0 (job.w * h) out).IsDone ↔
      (∀ m < job.w * h, m * job.s + 2 < job.l) ∧
        ∀ k < keptCount job.phase job.w h,
          chromaVAddress job.mode job.voff (job.w * h + chromaAdvance job.mode * k) < job.olen := by
  have hloop := convertLoop_isDone_iff (job := job) (inp := inp) (job.w * h) (job.w * h) 0 0 out
  simpa [keptBelow, keptBelow_all] using hloop

/-! ## The two bounds in closed form -/

/-- How many bytes the chroma stores of `kept` samples take, from the start of the chroma region to the end of the last
of them (R144, R145). -/
def chromaExtent (layout : Layout) (voff kept : Nat) : Nat :=
  match layout with
  | .planar => kept + voff
  | .nv12 => 2 * kept

/-- The chroma stores fit a region exactly when their extent does. Without a sample the extent is `VOFF`, which any
region that has the V plane holds (R144, R145). -/
theorem forall_chromaVAddress_lt_iff (layout : Layout) {voff region : Nat} (kept : Nat) (hvoff : voff ≤ region) :
    (∀ k < kept, chromaVAddress layout voff (chromaAdvance layout * k) < region) ↔
      chromaExtent layout voff kept ≤ region := by
  refine ⟨fun h => ?_, fun h k hk => ?_⟩
  · rcases Nat.eq_zero_or_pos kept with h0 | h0
    · cases layout <;> simp only [chromaExtent] <;> omega
    · have hlast := h (kept - 1) (Nat.sub_lt h0 Nat.one_pos)
      cases layout <;> simp only [chromaVAddress, chromaAdvance, chromaExtent] at hlast ⊢ <;> omega
  · cases layout <;> simp only [chromaVAddress, chromaAdvance, chromaExtent] at h ⊢ <;> omega

/-- Every fetch is in bounds exactly when that of the last pixel is (R158). -/
theorem forall_fetch_lt_iff {n : Nat} (stride len : Nat) (hn : 0 < n) :
    (∀ m < n, m * stride + 2 < len) ↔ (n - 1) * stride + 3 ≤ len := by
  refine ⟨fun h => h (n - 1) (Nat.sub_lt hn Nat.one_pos), fun h m hm => ?_⟩
  have hle : m * stride ≤ (n - 1) * stride := Nat.mul_le_mul_right stride (Nat.le_sub_one_of_lt hm)
  omega

/-- The program of R98 ends in `DONE` exactly when there is no pixel, or the last fetch is in bounds and the chroma
stores fit (R144, R145, R184). -/
theorem convertReference_isDone_iff (layout : Layout) (w h stride len : Nat) :
    (convertReference p layout w h stride len inp).IsDone ↔
      w * h = 0 ∨ (w * h - 1) * stride + 3 ≤ len ∧
        chromaExtent layout (vOffset p.voffMode (chromaPlaneSize (w * h))) (keptCount p.cphase w h) ≤ w * h / 2 := by
  rcases Nat.eq_zero_or_pos (w * h) with h0 | h0
  · simp [convertReference, convertLoop, Conversion.IsDone, h0]
  · have hvoff : vOffset p.voffMode (chromaPlaneSize (w * h)) ≤ w * h / 2 :=
      (vOffset_le _ _).trans (Nat.div_le_div_left (by decide) (by decide))
    have holen : outputLength (w * h) = w * h + w * h / 2 := by
      rw [outputLength]
      omega
    rw [convertReference, convertLoop_image_isDone_iff, or_iff_right h0.ne', ← forall_fetch_lt_iff stride len h0,
      ← forall_chromaVAddress_lt_iff layout _ hvoff]
    simp only [chromaVAddress_add, holen, Nat.add_lt_add_iff_left]

/-! ## Settled -/

/-- Settles O44: the machine ends as the program of R98 does, and a geometry that is refused leaves `FAULT`. -/
theorem operationSucceedsExactly : Obligations.OperationSucceedsExactly := by
  intro p layout s w h n voff fits ha
  have hvoff : vOffset p.voffMode (chromaPlaneSize n) = voff := vOffset_eq_ite p.voffMode n
  have hfits : chromaExtent layout voff (keptCount p.cphase w h) ≤ n / 2 ↔ fits := by
    cases layout <;> rfl
  by_cases hn : n ≤ p.maxPixels
  · rw [(engineTurns_start_endsAs ha layout s hn).done_iff, convertReference_isDone_iff, ← hfits, ← hvoff]
    exact (and_iff_right hn).symm
  · exact iff_of_false (fun hd => hn (pixelCount_le_of_done ha hd)) (fun hok => hn hok.1)

end Sys2Proof.Machine

/-! SUPPORT. The host's accesses that the rest of the text leaves open (spec/70_reset_and_hazards.md R180 to R182, R187,
R189, R190): register accesses that are refused, reads of `IN`, and the reset event. -/

namespace Sys2Proof.Machine

variable {p : Config.Params}

/-! ## Register accesses that are refused -/

/-- There are ten registers (R27). -/
theorem Reg.ofNum_of_le {num : Nat} (h : 10 ≤ num) : Reg.ofNum num = none :=
  match num, h with
  | _ + 10, _ => rfl

/-- The widths of the ten registers on this hardware (R27). -/
theorem registerWidth_hardware :
    ∀ num < 10, registerWidth Config.hardware num = some (if num = 3 ∨ num = 7 ∨ num = 9 then 64 else 32) := by
  decide

/-- A width in the table is that of a register (R27). -/
theorem exists_reg_of_registerWidth {num n : Nat} (h : registerWidth p num = some n) :
    ∃ r, Reg.ofNum num = some r ∧ r.bits p = n := by
  rwa [registerWidth_eq, Option.map_eq_some_iff] at h

section Refused

variable (s : MachineState p) {num width : Nat}

/-- A write of a register that does not exist (R190). -/
theorem hostWrite_noSuchRegister (h : Reg.ofNum num = none) (v : BitVec width) :
    hostWrite num width v s = .refused (.noSuchRegister num) := by
  rw [hostWrite, h]

/-- A read of a register that does not exist (R190). -/
theorem hostRead_noSuchRegister (h : Reg.ofNum num = none) :
    hostRead num width s = .refused (.noSuchRegister num) := by
  rw [hostRead, h]

/-- A write of another width than the register's (R190). -/
theorem hostWrite_partialAccess {n : Nat} (h : registerWidth p num = some n) (hw : width ≠ n) (v : BitVec width) :
    hostWrite num width v s = .refused (.partialAccess num width) := by
  obtain ⟨r, hr, rfl⟩ := exists_reg_of_registerWidth h
  rw [hostWrite, hr]
  exact if_neg hw

/-- A read of another width than the register's (R190). -/
theorem hostRead_partialAccess {n : Nat} (h : registerWidth p num = some n) (hw : width ≠ n) :
    hostRead num width s = .refused (.partialAccess num width) := by
  obtain ⟨r, hr, rfl⟩ := exists_reg_of_registerWidth h
  rw [hostRead, hr]
  exact if_neg hw

end Refused

/-! ## Reads of `IN` by the host -/

/-- A read that stays within the addresses of `IN`, or reads no byte (R47, R187). -/
theorem hostReadIn_inside (s : MachineState p) {addr count : Nat} (h : count = 0 ∨ addr + count ≤ p.addressSpace) :
    hostReadIn addr count s = .next (s.withHostData (.bytes (inBytes s addr count))) := by
  rw [hostReadIn, if_neg (by omega)]

@[simp] theorem inBytes_length (s : MachineState p) (addr count : Nat) : (inBytes s addr count).length = count := by
  induction count generalizing addr with
  | zero => rfl
  | succ count ih => rw [inBytes, List.length_cons, ih]

/-- Each byte of the answer is the byte that a fetch gets at its address (R39, R51). -/
theorem inBytes_getElem? (s : MachineState p) (addr : Nat) {count k : Nat} (hk : k < count) :
    (inBytes s addr count)[k]? = some (inByte s (addr + k)) := by
  induction count generalizing addr k with
  | zero => exact absurd hk (Nat.not_lt_zero k)
  | succ count ih =>
    cases k with
    | zero => rfl
    | succ k =>
      rw [inBytes, List.getElem?_cons_succ, ih (addr + 1) (Nat.lt_of_succ_lt_succ hk), Nat.add_assoc, Nat.add_comm 1 k]

/-- Which bytes `IN` holds does not depend on the events to come. -/
theorem inBytes_withSchedule (s : MachineState p) (rest : List Event) (addr count : Nat) :
    inBytes (s.withSchedule rest) addr count = inBytes s addr count := by
  induction count generalizing addr with
  | zero => rfl
  | succ count ih => exact congrArg (inByte s addr :: ·) (ih (addr + 1))

/-! ## Memories without a byte -/

@[simp] theorem Memory.read_blank (a : Nat) : Memory.blank.read a = none := rfl

/-- Behind a reset every byte of `IN` is the free value of the reset's number (R182). -/
theorem inByte_resetEvent (s : MachineState p) (a : Nat) :
    inByte (resetEvent s) a = Config.unwrittenIn (s.epoch + 1) a := rfl

/-! ## Settled -/

/-- Settles O53: both accesses look the number up first and compare the width next. -/
theorem undefinedRegisterAccessRefused : Obligations.UndefinedRegisterAccessRefused := by
  rintro num width v rest s (hsched | hsched)
  · have hstep : step s = onHardware (hostWrite num width v (s.withSchedule rest)) := step_cons hsched
    refine ⟨fun hnum => ?_, fun hnum hw => ?_⟩
    · rw [hstep, hostWrite_noSuchRegister _ (Reg.ofNum_of_le hnum), onHardware_refused]
    · rw [hstep, hostWrite_partialAccess _ (registerWidth_hardware num hnum) hw, onHardware_refused]
  · have hstep : step s = onHardware (hostRead num width (s.withSchedule rest)) := step_cons hsched
    refine ⟨fun hnum => ?_, fun hnum hw => ?_⟩
    · rw [hstep, hostRead_noSuchRegister _ (Reg.ofNum_of_le hnum), onHardware_refused]
    · rw [hstep, hostRead_partialAccess _ (registerWidth_hardware num hnum) hw, onHardware_refused]

/-- Settles O55: the answer is the list of the bytes from the address up. -/
theorem inputReadBack : Obligations.InputReadBack := by
  intro addr count rest s hsched hin
  have hstep : step s = onHardware (hostReadIn addr count (s.withSchedule rest)) := step_cons hsched
  refine ⟨inBytes s.toMachineState addr count, ?_, inBytes_length _ _ _, fun k => inBytes_getElem? _ _⟩
  rw [hstep, hostReadIn_inside _ hin, inBytes_withSchedule]
  rfl

/-- Settles O57: the event has no meaning but its refusal. -/
theorem hostNeverWritesOutput : Obligations.HostNeverWritesOutput := fun _ _ _ _ hsched => step_cons hsched

/-- Settles O58: the state behind the event is the reset state but for the schedule, the host's last answer and the
reset's number. -/
theorem resetEventRestores : Obligations.ResetEventRestores := by
  intro rest s hsched
  exact ⟨{ toMachineState := resetEvent (s.withSchedule rest) }, step_cons hsched, rfl, rfl, rfl, rfl, rfl, rfl, rfl,
    rfl, fun a => ⟨Memory.read_blank a, inByte_resetEvent _ a⟩, Memory.read_blank⟩

end Sys2Proof.Machine
